-- ==== Sys2Proof/Word.lean ====
section
/-! DEFINITION. The word types of the block: registers, bus and bus transfers are 32 bits wide
(00_scope.md R4 WORD, R6), a text is made of bytes, and a command word has 68 bits (30_encoding.md R72). -/

namespace Sys2Proof

/-- A word: the width of every register, of the bus and of every bus transfer (R4, R6). -/
abbrev Word := BitVec 32

/-- A byte, as TRANSMIT submits it (R115). -/
abbrev Byte := BitVec 8

/-- The fixed-width part {op, a, b} of a command on the command port (R72). -/
abbrev CommandWord := BitVec 68

end Sys2Proof
end

