-- ==== Sys2Proof/Syntax.lean ====
section
/-! DEFINITION. The syntax: the ten commands (30_encoding.md R74), what the command port carries (R72), and the
names of the function and pull variants (00_scope.md R12). -/

namespace Sys2Proof

/-- The eight function variants of a pin (R12, R18); their codes are `PinFunction.code`. -/
inductive PinFunction where
  | input
  | output
  | alt0
  | alt1
  | alt2
  | alt3
  | alt4
  | alt5
  deriving DecidableEq, Repr

/-- The three pull variants of a pin (R12); their codes are `PullVariant.code`. -/
inductive PullVariant where
  | none
  | pullDown
  | pullUp
  deriving DecidableEq, Repr

/-- The commands of opcode_table.json, one constructor per row, with the operand fields of the row's format (R73). -/
inductive Instr where
  /-- REG_READ, format F_ADDR. -/
  | regRead (addr : Word)
  /-- REG_WRITE, format F_ADDR_DATA. -/
  | regWrite (addr : Word) (data : Word)
  /-- PIN_CONSTRUCT, format F_PIN: the pin identifier keeps its 32 bits, valid or not (R92). -/
  | pinConstruct (pin : Word)
  /-- SET_FUNCTION, format F_PIN_FN: the operand is the hardware code itself (R73). -/
  | setFunction (pin : Word) (code : BitVec 3)
  /-- SET_PULL_UP_DOWN, format F_PIN_PUD: the code 0b11 decodes and then faults (R77). -/
  | setPullUpDown (pin : Word) (code : BitVec 2)
  /-- UART_CONSTRUCT, format F_ADDR. -/
  | uartConstruct (base : Word)
  /-- INITIALIZE, format F_BAUD. -/
  | uartInitialize (baud : Word)
  /-- TRANSMIT, format F_BYTE. -/
  | transmit (byte : Byte)
  /-- TRANSMIT_TEXT, format F_TEXT: the operand n is the length of the text. -/
  | transmitText (text : List Byte)
  /-- HALT, format F_NONE. -/
  | halt
  deriving DecidableEq, Repr

/-- One command as it stands on the command port (R72): the command word {op, a, b} and the text. -/
structure PortCommand where
  cw : CommandWord
  text : List Byte
  deriving DecidableEq, Repr

end Sys2Proof
end

