-- ==== Sys2Proof/Machine/Codes.lean ====
section
/-! DEFINITION. The code tables FSEL_CODE and PUD_CODE (30_encoding.md R66, R68), each with its inverse. -/

namespace Sys2Proof

/-- FSEL_CODE (R66, D8): the 3-bit hardware code of a function variant. -/
def PinFunction.code : PinFunction → BitVec 3
  | .input => 0b000
  | .output => 0b001
  | .alt0 => 0b100
  | .alt1 => 0b101
  | .alt2 => 0b110
  | .alt3 => 0b111
  | .alt4 => 0b011
  | .alt5 => 0b010

/-- The variant a function field names; every 3-bit value names one (R18). -/
def PinFunction.ofCode (c : BitVec 3) : PinFunction :=
  match c with
  | 0b000#3 => .input
  | 0b001#3 => .output
  | 0b010#3 => .alt5
  | 0b011#3 => .alt4
  | 0b100#3 => .alt0
  | 0b101#3 => .alt1
  | 0b110#3 => .alt2
  | 0b111#3 => .alt3

/-- PUD_CODE (R68, D9): the 2-bit hardware code of a pull variant. -/
def PullVariant.code : PullVariant → BitVec 2
  | .none => 0b00
  | .pullDown => 0b01
  | .pullUp => 0b10

/-- The variant a pull code names; 0b11 names none and is reserved (R77). -/
def PullVariant.ofCode (c : BitVec 2) : Option PullVariant :=
  match c with
  | 0b00#2 => some .none
  | 0b01#2 => some .pullDown
  | 0b10#2 => some .pullUp
  | 0b11#2 => Option.none

end Sys2Proof
end

