-- ==== Sys2Proof/Config.lean ====
section
/-! DEFINITION. What one build of the block fixes (00_scope.md R4): the selectable and OPEN parameters that are
data, gathered in `Board`, and the free values and the OPEN function, which are opaque constants with no body. A free value is
used where the state lists no draw of its kind (Machine/State.lean, `Draws`). The literals of R4 that the spec fixes are ordinary definitions of Machine/Map.lean and Machine/Operands.lean. -/

namespace Sys2Proof

/-- PLATFORM (R4): which of the "Two supported platform base-address pairs" is in effect.
The type has no third value: a platform that is neither cannot be configured (60_exceptions.md R129, 93 U7). -/
inductive Platform where
  | p3f
  | pfe
  deriving DecidableEq, Repr

/-- The parameters of R4 that are chosen at build time or left OPEN and are plain data.
A state carries its board (log 1), so a statement about every state is a statement about every configuration. -/
structure Board where
  /-- PLATFORM. -/
  platform : Platform
  /-- PUD_OFF, the byte offset of pull-control register 0 from GPIO_BASE: OPEN under WF_MAP (R5, D7). -/
  pudOff : Nat
  /-- FIFO_DEPTH, how many bytes the transmit FIFO holds: OPEN (R4, R37, D26). -/
  fifoDepth : Nat
  deriving DecidableEq, Repr

/-- FBRD_FN (30_encoding.md R83, D21): the OPEN function (UART_CLK, baud) to the word written to FBRD.
No body: the model assumes only that it is a function of its two arguments. -/
opaque Config.fbrdFn : Nat → Nat → Word

/-- The draws of a DR read (10_state.md R14, 93 U11), by the number of draws of this kind taken before. Free value,
log 10. -/
opaque Config.freeWord : Nat → Word

/-- The answers "full" (true) or "not full" of the FIFO-full draws (42 R117, 93 U5), by the number of draws of
this kind taken before. Free value, log 10. -/
opaque Config.freeBool : Nat → Bool

/-- The byte sequences a write of CR may leave queued (42 R113, 93 U10), before they are cut to the length of the
old queue, by the number of draws of this kind taken before. Free value, log 10. -/
opaque Config.freeBytes : Nat → List Byte

/-- How many bytes the transmit engine moves at a time (42 R120, 93 U9 and U25), cut to the queue's length, by the
number of draws of this kind taken before. Free value, log 10. -/
opaque Config.freeCount : Nat → Nat

end Sys2Proof
end

