-- ==== Sys2Proof/Machine/Operands.lean ====
section
/-! DEFINITION. Operand assembly (30_encoding.md R75): from a pin, a code, a baud rate or a byte to indices, masks and
words, and the literals of 00_scope.md R4 they use. -/

namespace Sys2Proof.Machine

/-- PIN_MAX (R4): valid pins are 0 to 53. -/
def pinMax : Nat := 53

/-- Pin validity (41 R92). -/
def pinValid (pin : Word) : Bool := decide (pin.toNat ≤ pinMax)

/-- FSEL index n = p / 10 (R75); it is p / 10 itself on a valid pin. -/
def fselIndex (p : Nat) : Fin 6 := Fin.ofNat 6 (p / 10)

/-- Field offset s = (p % 10) * 3 (R65, R75). -/
def fieldOffset (p : Nat) : Nat := (p % 10) * 3

/-- The mask of the function field of pin p, 0b111 << s (R65). -/
def fieldMask (p : Nat) : Word := 0b111#32 <<< fieldOffset p

/-- The word SET_FUNCTION writes back: the field of pin p cleared and the code OR-ed in (41 R94). -/
def withField (word : Word) (p : Nat) (code : BitVec 3) : Word :=
  (word &&& ~~~(fieldMask p)) ||| (code.setWidth 32 <<< fieldOffset p)

/-- The function field of pin p in a word, bits [s+2 : s] (R16). -/
def fieldOf (word : Word) (p : Nat) : BitVec 3 := word.extractLsb' (fieldOffset p) 3

/-- PUD and PUDCLK index k = p / 32 (R75); it is p / 32 itself on a valid pin. -/
def pullIndex (p : Nat) : Fin 2 := Fin.ofNat 2 (p / 32)

/-- The clock mask 1 << (p % 32) (R69). -/
def clockMask (p : Nat) : Word := 1#32 <<< (p % 32)

/-- N_DELAY (R4): the iteration count of the busy-wait of the handshake. -/
def nDelay : Nat := 150

/-- UART_CLK in Hz (R4, D20). -/
def uartClk : Nat := 48000000

/-- The baud rates for which the divisor is computed (42 R108): not 0 and below 2^28. -/
def baudValid (baud : Word) : Bool := decide (baud.toNat ≠ 0 ∧ baud.toNat < 2 ^ 28)

/-- The IBRD word UART_CLK / (16 * baud), truncating (R83, 42 R108). -/
def ibrdWord (baud : Word) : Word := BitVec.ofNat 32 (uartClk / (16 * baud.toNat))

/-- The FBRD word FBRD_FN(UART_CLK, baud) (R83, 42 R109). -/
def fbrdWord (baud : Word) : Word := Config.fbrdFn uartClk baud.toNat

/-- LCRH_8N1 (R4, R70): the bits merged into the line-control register. -/
def lcrh8n1 : Word := 0x60

/-- CR_FIFO_PHASE (R4, R70). -/
def crFifoPhase : Word := 0xC5

/-- CR_ENABLE (R4, R70). -/
def crEnable : Word := 0x301

/-- The DR word of a byte: zext_32(byte) (R71). -/
def drWord (byte : Byte) : Word := byte.setWidth 32

/-- The byte a DR write submits: bits [7:0] of the word (10 R25). -/
def drByte (word : Word) : Byte := word.extractLsb' 0 8

end Sys2Proof.Machine
end

