-- ==== Sys2Proof/Machine/Map.lean ====
section
/-! DEFINITION. The address map (20_memory.md R47, R48): the fourteen registers that hold a word and the data
register, the address of each under a board, WF_MAP (00_scope.md R5), and the look-up of an address. -/

namespace Sys2Proof

/-- The registers that hold a word (10_state.md R13, R14). DR holds no readable state (R25) and is a `Location` only. -/
inductive Reg where
  /-- FSEL[n], n = 0..5 (R15). -/
  | fsel (n : Fin 6)
  /-- PUD[k], k = 0..1 (R19). -/
  | pud (k : Fin 2)
  /-- PUDCLK[k], k = 0..1 (R21). -/
  | pudclk (k : Fin 2)
  | ibrd
  | fbrd
  | lcrh
  | cr
  deriving DecidableEq, Repr

/-- The fifteen backed locations of the address space (R46, R47). -/
inductive Location where
  | reg (r : Reg)
  | dr
  deriving DecidableEq, Repr

/-- GPIO_BASE (R4, D3). -/
def Board.gpioBase (c : Board) : Nat :=
  match c.platform with
  | .p3f => 0x3F200000
  | .pfe => 0xFE200000

/-- UART_BASE = GPIO_BASE + 0x1000 (R4, D4). -/
def Board.uartBase (c : Board) : Nat := c.gpioBase + 0x1000

/-- FSEL_STRIDE and PUD_STRIDE (R4). -/
def registerStride : Nat := 4

/-- CLK_OFF (R4): the distance from a pull-control register to its clock register. -/
def clkOff : Nat := 0x94

/-- The address of a location as a sum of naturals (R47). -/
def Board.addrNat (c : Board) : Location → Nat
  | .reg (.fsel n) => c.gpioBase + registerStride * n.val
  | .reg (.pud k) => c.gpioBase + c.pudOff + registerStride * k.val
  | .reg (.pudclk k) => c.gpioBase + c.pudOff + registerStride * k.val + clkOff
  | .dr => c.uartBase + 0x00
  | .reg .ibrd => c.uartBase + 0x24
  | .reg .fbrd => c.uartBase + 0x28
  | .reg .lcrh => c.uartBase + 0x2C
  | .reg .cr => c.uartBase + 0x30

/-- A_FSEL(n), A_PUD(k), A_PUDCLK(k), A_DR, A_IBRD, A_FBRD, A_LCRH, A_CR: the address as a word (R47). -/
def Board.addr (c : Board) (l : Location) : Word := BitVec.ofNat 32 (c.addrNat l)

/-- The fifteen locations in the order of R47. -/
def Location.all : List Location :=
  [.reg (.fsel 0), .reg (.fsel 1), .reg (.fsel 2), .reg (.fsel 3), .reg (.fsel 4), .reg (.fsel 5),
   .reg (.pud 0), .reg (.pud 1), .reg (.pudclk 0), .reg (.pudclk 1),
   .dr, .reg .ibrd, .reg .fbrd, .reg .lcrh, .reg .cr]

/-- WF_MAP (R5): PUD_OFF is a multiple of 4, the fifteen addresses are pairwise distinct, and no sum exceeds 2^32 - 1. -/
abbrev Board.WfMap (c : Board) : Prop :=
  c.pudOff % 4 = 0 ∧ (Location.all.map c.addrNat).Nodup ∧ ∀ l ∈ Location.all, c.addrNat l < 2 ^ 32

/-- The location at an address, if one of the fifteen is there (R46, R49). A misaligned address is none (R51). -/
def Board.locate (c : Board) (address : Word) : Option Location :=
  Location.all.find? (fun l => c.addr l == address)

/-- The example configuration CFG_A of R48 (PLATFORM = P3F, PUD_OFF = 0x94), with the model's FIFO_DEPTH (log 2). -/
def Board.cfgA : Board := { platform := .p3f, pudOff := 0x94, fifoDepth := 16 }

end Sys2Proof
end

