-- ==== Sys2Proof/Machine/State.lean ====
section
/-! DEFINITION. The state of the block (10_state.md R13) as plain data, the faults and refusals, and the state at
reset (R42). Fields marked MODEL are the model's own: the configuration, the command stream and the draws, which
R40 calls inputs and which a step that is a function of the state alone finds in it. -/

namespace Sys2Proof.Machine

/-- The words of the fourteen registers that hold one (R13, R14): the register image, R0 at launch (R41). -/
structure RegFile where
  fsel : Vector Word 6
  pud : Vector Word 2
  pudclk : Vector Word 2
  ibrd : Word
  fbrd : Word
  lcrh : Word
  cr : Word
  deriving DecidableEq, Repr

/-- One event of the trace (00_scope.md R10). -/
inductive Event where
  /-- Rd(addr, value). -/
  | rd (addr value : Word)
  /-- Wr(addr, value). -/
  | wr (addr value : Word)
  /-- Dly(n). -/
  | dly (n : Nat)
  deriving DecidableEq, Repr

/-- `uart_state` (R30). -/
inductive UartState where
  | uninitialized
  | initialized
  deriving DecidableEq, Repr

/-- The pull latch of a pin (R36): a variant, or Unspecified, which stands for none of the three. -/
inductive PullState where
  | latched (v : PullVariant)
  | unspecified
  deriving DecidableEq, Repr

/-- The micro-step pointer (R34): idle, or the command being performed and the index of its next step. -/
inductive Upc where
  | idle
  | busy (op : BitVec 4) (index : Nat)
  deriving DecidableEq, Repr

/-- The faults of 60_exceptions.md R129. `raise` puts one into the field `fault` of a NEXT state (R131), so no step
ends in `Host.Outcome.fault` (log 8). All are safe: each stands for an input the source calls undefined, of which
the model then says nothing (R131). -/
inductive Fault where
  /-- Raised by SET_FUNCTION and SET_PULL_UP_DOWN when p > PIN_MAX (R92); safe. -/
  | invalidPinIdentifier (pin : Word)
  /-- Raised by TRANSMIT, TRANSMIT_TEXT and a REG_WRITE to DR while `uart_state` is Uninitialized (R116); safe. -/
  | uartNotInitialized
  /-- Raised by TRANSMIT, TRANSMIT_TEXT and a REG_WRITE to DR when the FIFO is full (R117); safe. -/
  | uartFifoOverflow (byte : Byte)
  /-- Raised by UART_CONSTRUCT when the base is not UART_BASE (R105); safe. -/
  | unsupportedPlatform (base : Word)
  /-- Raised by REG_READ and REG_WRITE when no register has the address (R49, R51, R86, R87); safe. -/
  | unbackedAddress (addr : Word)
  /-- Raised by the decoder on a command that spells no operation (R76); safe. -/
  | illegalCommand (cw : CommandWord)
  /-- Raised by SET_PULL_UP_DOWN on the code 0b11 (R77); safe. -/
  | reservedCode (code : BitVec 2)
  /-- Raised by INITIALIZE when baud = 0 or baud >= 2^28 (R108); safe. -/
  | invalidBaud (baud : Word)
  deriving DecidableEq, Repr

/-- Why a step is refused. -/
inductive Refusal where
  /-- Answered by an arm of `exec` whose instruction has no meaning yet: there is none; safe. -/
  | notModelled (mnemonic : String)
  /-- Answered by `step` when the configuration violates WF_MAP: "A model refuses a configuration that violates
  WF_MAP" (00_scope.md R5); safe. -/
  | configurationNotAdmitted
  deriving DecidableEq, Repr

/-- The draws of one kind: the coming values that the environment has listed, first first, and how many draws of the
kind the run has taken. A draw with nothing listed is a free value: an opaque constant of Config at the number `taken`
(log 10). -/
structure Supply (α : Type) where
  listed : List α
  taken : Nat
  deriving DecidableEq, Repr

/-- No draw of the kind listed and none taken. -/
def Supply.unlisted {α : Type} : Supply α where
  listed := []
  taken := 0

/-- The draws of 00_scope.md R9, which 10_state.md R40 calls inputs of the step, as plain data. Each kind has a supply
of its own, so that how many draws of one kind a run takes decides nothing about another kind (log 10). -/
structure Draws where
  /-- Answers to the FIFO-full draws, true = full (42 R117, 93 U5). -/
  fifoFull : Supply Bool
  /-- How many bytes the transmit engine moves at a time (42 R120, 93 U9, U25). -/
  engineMoves : Supply Nat
  /-- The words of DR reads (R14, 93 U11). -/
  drWords : Supply Word
  /-- What a write of CR leaves of a non-empty `txq`, before it is cut to the old length (42 R113, 93 U10). -/
  queues : Supply (List Byte)
  deriving DecidableEq, Repr

/-- No draw listed and none taken: every draw of a run from reset is a free value. -/
def Draws.unlisted : Draws where
  fifoFull := Supply.unlisted
  engineMoves := Supply.unlisted
  drWords := Supply.unlisted
  queues := Supply.unlisted

/-- The state of the block (R13). -/
structure State where
  /-- MODEL: the configuration (R40), which no step writes (log 1). -/
  cfg : Board
  /-- The registers FSEL, PUD, PUDCLK, IBRD, FBRD, LCRH, CR (R15 to R29). -/
  regs : RegFile
  /-- `uart_state` (R30). -/
  uart : UartState
  /-- `halted` (R31). -/
  halted : Bool
  /-- `fault` (R32). -/
  fault : Option Fault
  /-- Working register A = x[0] (R33). -/
  a : Word
  /-- Working register B = x[1] (R33). -/
  b : Word
  /-- Working register T = x[2] (R33). -/
  t : Word
  /-- The micro-step pointer `upc` (R34). -/
  upc : Upc
  /-- The pull latches `pull[p]`, p = 0..53 (R36). -/
  pull : Vector PullState 54
  /-- The transmit queue `txq`, head first (R37). -/
  txq : List Byte
  /-- The output byte stream `tx_out`, oldest first (R37). -/
  txOut : List Byte
  /-- The delay counter `dly` (R38). -/
  dly : Nat
  /-- The event trace, oldest first (R39). -/
  trace : List Event
  /-- The response field `rdata` of the command port (30_encoding.md R72). -/
  rdata : Word
  /-- MODEL: the commands the host has still to issue, first first (43_system.md R122, R124). -/
  port : List PortCommand
  /-- MODEL: the free inputs of the coming steps (R40). -/
  draws : Draws
  deriving DecidableEq, Repr

/-- The state at the start of a run with configuration `cfg` and register image `image` (R42, 43 R124): A, B, T, `dly`
and `rdata`, which the spec leaves unspecified, are 0 (logs 4, 5, 6). -/
def State.launch (cfg : Board) (image : RegFile) : State where
  cfg := cfg
  regs := image
  uart := .uninitialized
  halted := false
  fault := none
  a := 0
  b := 0
  t := 0
  upc := .idle
  pull := Vector.replicate 54 .unspecified
  txq := []
  txOut := []
  dly := 0
  trace := []
  rdata := 0
  port := []
  draws := Draws.unlisted

/-- The register image of `State.reset`: all zeros, a choice of the model (log 3). -/
def RegFile.zero : RegFile where
  fsel := Vector.replicate 6 0
  pud := Vector.replicate 2 0
  pudclk := Vector.replicate 2 0
  ibrd := 0
  fbrd := 0
  lcrh := 0
  cr := 0

/-- The machine right after reset: the launch (R42) of CFG_A (log 1) with the zero image (log 3). -/
def State.reset : State := State.launch Board.cfgA RegFile.zero

end Sys2Proof.Machine
end

