-- ==== Sys2Proof/Machine/Ops.lean ====
section
/-! DEFINITION. The named operations over the state: the register file, the primitives MemRead, MemWrite and Delay
(00_scope.md R9), the draws, `raise` (60_exceptions.md R131), the pull latch, the transmit queue and the transmit engine. -/

namespace Sys2Proof.Machine

/-- The word a register holds (10_state.md R14). -/
def RegFile.read (f : RegFile) : Reg → Word
  | .fsel n => f.fsel[n]
  | .pud k => f.pud[k]
  | .pudclk k => f.pudclk[k]
  | .ibrd => f.ibrd
  | .fbrd => f.fbrd
  | .lcrh => f.lcrh
  | .cr => f.cr

/-- A write replaces the whole content of one register (R14). -/
def RegFile.write (f : RegFile) (r : Reg) (v : Word) : RegFile :=
  match r with
  | .fsel n => { f with fsel := f.fsel.set n v }
  | .pud k => { f with pud := f.pud.set k v }
  | .pudclk k => { f with pudclk := f.pudclk.set k v }
  | .ibrd => { f with ibrd := v }
  | .fbrd => { f with fbrd := v }
  | .lcrh => { f with lcrh := v }
  | .cr => { f with cr := v }

/-- The coming draw of a kind: the first listed value, else the free value of the kind at the number taken (log 10). -/
def Supply.head {α : Type} (free : Nat → α) (d : Supply α) : α := d.listed.headD (free d.taken)

/-- One draw of a kind is used up. -/
def Supply.use {α : Type} (d : Supply α) : Supply α := { listed := d.listed.tail, taken := d.taken + 1 }

/-- What the coming FIFO-full draw answers, true = full. -/
def Draws.full (d : Draws) : Bool := d.fifoFull.head Config.freeBool

/-- The coming draw of how many bytes the engine moves. -/
def Draws.moves (d : Draws) : Nat := d.engineMoves.head Config.freeCount

/-- The coming draw of the word of a DR read. -/
def Draws.drWord (d : Draws) : Word := d.drWords.head Config.freeWord

/-- The coming draw of the bytes a write of CR leaves queued. -/
def Draws.queue (d : Draws) : List Byte := d.queues.head Config.freeBytes

/-- A FIFO-full draw is used up. -/
def Draws.useFull (d : Draws) : Draws := { d with fifoFull := d.fifoFull.use }

/-- An engine draw is used up. -/
def Draws.useMoves (d : Draws) : Draws := { d with engineMoves := d.engineMoves.use }

/-- A draw of a DR word is used up. -/
def Draws.useDrWord (d : Draws) : Draws := { d with drWords := d.drWords.use }

/-- A draw of queued bytes is used up. -/
def Draws.useQueue (d : Draws) : Draws := { d with queues := d.queues.use }

/-- Append an event to the trace (R39, 00 R10). -/
def State.record (e : Event) (s : State) : State := { s with trace := s.trace ++ [e] }

/-- The next step of the same command; idle stays idle (R34). -/
def Upc.next : Upc → Upc
  | .idle => .idle
  | .busy op index => .busy op (index + 1)

/-- Each step advances `upc` by one (R34). -/
def State.advance (s : State) : State := { s with upc := s.upc.next }

/-- After its last step a command completes: `upc` becomes idle (R34, 40 R85 (d)). -/
def State.complete (s : State) : State := { s with upc := .idle }

/-- `raise F(info)`: set the fault mark and end the command (60 R131). Nothing else changes (R130). -/
def State.raise (f : Fault) (s : State) : State := { s with fault := some f, upc := .idle }

/-- `MemRead(addr, 4)` at a backed location (20 R52): a register answers the word it holds, DR a free value (R14);
the event is traced and nothing else changes. -/
def State.memRead (l : Location) (s : State) : Word × State :=
  match l with
  | .reg r => (s.regs.read r, (s.record (.rd (s.cfg.addr l) (s.regs.read r))).advance)
  | .dr =>
    (s.draws.drWord,
      ({ s with draws := s.draws.useDrWord }.record (.rd (s.cfg.addr l) s.draws.drWord)).advance)

/-- `MemWrite(addr, 4, v)` at a backed location (20 R53): the event is traced; a register takes the word, and at DR
the byte v[7:0] is submitted to the transmit queue (10 R37). -/
def State.memWrite (l : Location) (v : Word) (s : State) : State :=
  match l with
  | .reg r => ({ s with regs := s.regs.write r v }.record (.wr (s.cfg.addr l) v)).advance
  | .dr => ({ s with txq := s.txq ++ [drByte v] }.record (.wr (s.cfg.addr l) v)).advance

/-- Write the working register T = x[2] (10 R33). -/
def State.setT (v : Word) (s : State) : State := { s with t := v }

/-- Drive the response field of the command port (30 R72). -/
def State.respond (v : Word) (s : State) : State := { s with rdata := v }

/-- `x[2] <- MemRead(addr, 4)`: the read step of a read-modify-write (10 R33). -/
def State.readIntoT (l : Location) (s : State) : State := (s.memRead l).2.setT (s.memRead l).1

/-- The delay counter counts down once per iteration and ends the wait at zero (R38). -/
def State.countDown : Nat → State → State
  | 0, s => { s with dly := 0 }
  | n + 1, s => State.countDown n { s with dly := n }

/-- `Delay(n)` (41 R100): load the counter, count it down, and record Dly(n); no bus event, no register change. -/
def State.delay (n : Nat) (s : State) : State :=
  ((State.countDown n { s with dly := n }).record (.dly n)).advance

/-- The latch of pin p takes a value; no other pin's changes (41 R99). -/
def State.latchPull (p : Nat) (v : PullState) (s : State) : State :=
  { s with pull := s.pull.setIfInBounds p v }

/-- A raw write to PUD[k] or PUDCLK[k] makes pull[p] Unspecified for every pin p of chain k (40 R88). -/
def State.disturbChain (k : Fin 2) (s : State) : State :=
  { s with pull := s.pull.mapIdx (fun p v => if p / 32 = k.val then .unspecified else v) }

/-- At a write of CR (step 1 of INITIALIZE, or a REG_WRITE) a non-empty `txq` becomes a draw among the byte sequences
no longer than it; an empty one stays empty (42 R113, 93 U10). -/
def State.disturbQueue (s : State) : State :=
  if s.txq = [] then s
  else { s with txq := s.draws.queue.take s.txq.length, draws := s.draws.useQueue }

/-- The transmit engine moves `n` bytes from the head of `txq` to the end of `tx_out`, in order (10 R37). -/
def State.moveBytes (n : Nat) (s : State) : State :=
  { s with txOut := s.txOut ++ s.txq.take n, txq := s.txq.drop n }

/-- A move of the transmit engine (42 R120): while `uart_state` is Initialized and `txq` is not empty it may move bytes;
how many it moves is a free value. -/
def State.engine (s : State) : State :=
  if s.uart = .initialized ∧ s.txq ≠ [] then
    { s with draws := s.draws.useMoves }.moveBytes s.draws.moves
  else s

/-- Whether the next DR write finds the FIFO full: a draw (42 R117), but a FIFO that holds no bytes is always full,
since `txq` has at most FIFO_DEPTH bytes (10 R37, log 2). -/
def State.fifoIsFull (s : State) : Bool := decide (s.cfg.fifoDepth = 0) || s.draws.full

/-- The engine's move at the completion of a command: by then its bytes "may be anywhere between `txq` and `tx_out`"
(42 R119). -/
def thenEngine : Host.Outcome State Fault Refusal → Host.Outcome State Fault Refusal
  | .next s => .next s.engine
  | .fault f => .fault f
  | .refused r => .refused r

/-- A DR write that finds the FIFO not full finds room in it: `txq` holds at most FIFO_DEPTH bytes (10 R37), so the
engine has by then moved what the queue held beyond FIFO_DEPTH - 1 bytes (log 2). -/
def State.makeRoom (s : State) : State := s.moveBytes (s.txq.length + 1 - s.cfg.fifoDepth)

/-- The function output of pin p (R35): the decode of its field in FSEL[p / 10]; a view, not separate state. -/
def State.pinFn (p : Nat) (s : State) : PinFunction :=
  PinFunction.ofCode (fieldOf (s.regs.read (.fsel (fselIndex p))) p)

end Sys2Proof.Machine
end

