-- ==== Sys2Proof/Machine/Flags.lean ====
section
/-! DEFINITION. The flags: who writes `uart_state` (10_state.md R30), when a command is accepted (40 R85), and the
two checks every DR write makes, the second of them the FIFO-full draw (42_uart_controller.md R115 to R117). -/

namespace Sys2Proof.Machine

/-- Write `uart_state` (R30). -/
def State.setUart (u : UartState) (s : State) : State := { s with uart := u }

/-- Whether `upc` is idle. -/
def Upc.isIdle : Upc → Bool
  | .idle => true
  | .busy _ _ => false

/-- A command is accepted only when `fault` = none, `halted` = false and `upc` = idle (40 R85 (a)). -/
def State.accepts (s : State) : Bool :=
  s.fault.isNone && !s.halted && s.upc.isIdle

/-- The two checks of a DR write of byte y, in their order (42 R115, 60 R130): the fault they raise, if any. -/
def State.drFault (y : Byte) (s : State) : Option Fault :=
  if s.uart = .uninitialized then some .uartNotInitialized
  else if s.fifoIsFull then some (.uartFifoOverflow y)
  else none

/-- A DR write that passed its checks: the draw is used up, the queue has room, and the word goes to DR (42 R115,
20 R53, 10 R37). -/
def State.drWrite (v : Word) (s : State) : State :=
  { s with draws := s.draws.useFull }.makeRoom.memWrite .dr v

/-- The DR write of TRANSMIT with its checks, for each byte in order; the first fault ends it, and what was written
before stays (42 R118). -/
def State.transmitBytes : List Byte → State → State
  | [], s => s
  | y :: ys, s =>
    match s.drFault y with
    | some f => s.raise f
    | none => State.transmitBytes ys (s.drWrite (drWord y))

end Sys2Proof.Machine
end

