-- ==== Sys2Proof/Machine/Accessor.lean ====
section
/-! DEFINITION. The register accessor commands REG_READ and REG_WRITE (40_register_accessor.md). -/

namespace Sys2Proof.Machine

/-- REG_READ (R86): one read of the addressed location, whose value goes to `rdata`. -/
def execRegRead (addr : Word) (s : State) : Host.Outcome State Fault Refusal :=
  match s.cfg.locate addr with
  | none => .next (s.raise (.unbackedAddress addr))
  | some l => .next ((s.memRead l).2.respond (s.memRead l).1).complete

/-- What a REG_WRITE does beyond storing the word: rule R88 for the pull registers, rule R89 (a) for the UART
registers; a write to an FSEL register has no further effect. -/
def State.rawWriteEffect (r : Reg) (s : State) : State :=
  match r with
  | .fsel _ => s
  | .pud k => s.disturbChain k
  | .pudclk k => s.disturbChain k
  | .ibrd => s.setUart .uninitialized
  | .fbrd => s.setUart .uninitialized
  | .lcrh => s.setUart .uninitialized
  | .cr => s.disturbQueue.setUart .uninitialized

/-- REG_WRITE (R87): a register is written and rules R88 and R89 (a) applied; a write to DR makes the checks of
TRANSMIT first and submits data[7:0], the whole word being traced (R89 (b)). -/
def execRegWrite (addr data : Word) (s : State) : Host.Outcome State Fault Refusal :=
  match s.cfg.locate addr with
  | none => .next (s.raise (.unbackedAddress addr))
  | some .dr =>
    match s.drFault (drByte data) with
    | some f => .next (s.raise f)
    | none => .next (s.drWrite data).complete
  | some (.reg r) => .next ((s.memWrite (.reg r) data).rawWriteEffect r).complete

end Sys2Proof.Machine
end

