-- ==== Sys2Proof/Machine/Pin.lean ====
section
/-! DEFINITION. The pin controller commands PIN_CONSTRUCT, SET_FUNCTION and SET_PULL_UP_DOWN (41_pin_controller.md). -/

namespace Sys2Proof.Machine

/-- PIN_CONSTRUCT (R93): "pure, touches no hardware"; the pin is not checked. -/
def execPinConstruct (_pin : Word) (s : State) : Host.Outcome State Fault Refusal :=
  .next s.complete

/-- The two steps of SET_FUNCTION on a valid pin p (R94): read FSEL[p / 10] into T, write it back with the field of p
replaced. -/
def State.setField (p : Nat) (code : BitVec 3) (s : State) : State :=
  let s1 := s.readIntoT (.reg (.fsel (fselIndex p)))
  s1.memWrite (.reg (.fsel (fselIndex p))) (withField s1.t p code)

/-- SET_FUNCTION (R94): InvalidPinIdentifier, else the read-modify-write. -/
def execSetFunction (pin : Word) (code : BitVec 3) (s : State) : Host.Outcome State Fault Refusal :=
  if pinValid pin then .next (s.setField pin.toNat code).complete
  else .next (s.raise (.invalidPinIdentifier pin))

/-- The six steps of the pull handshake on a valid pin p, and the latch they complete (R98, R99). -/
def State.pullHandshake (p : Nat) (v : PullVariant) (s : State) : State :=
  let k := pullIndex p
  let s1 := s.memWrite (.reg (.pud k)) (v.code.setWidth 32)
  let s2 := s1.delay nDelay
  let s3 := s2.memWrite (.reg (.pudclk k)) (clockMask p)
  let s4 := s3.delay nDelay
  let s5 := s4.memWrite (.reg (.pud k)) 0
  let s6 := s5.memWrite (.reg (.pudclk k)) 0
  s6.latchPull p (.latched v)

/-- SET_PULL_UP_DOWN (R98): InvalidPinIdentifier, then ReservedCode (60 R130), else the handshake. -/
def execSetPullUpDown (pin : Word) (code : BitVec 2) (s : State) : Host.Outcome State Fault Refusal :=
  if pinValid pin then
    match PullVariant.ofCode code with
    | none => .next (s.raise (.reservedCode code))
    | some v => .next (s.pullHandshake pin.toNat v).complete
  else .next (s.raise (.invalidPinIdentifier pin))

end Sys2Proof.Machine
end

