-- ==== Sys2Proof/Machine/System.lean ====
section
/-! DEFINITION. The system command HALT (43_system.md). -/

namespace Sys2Proof.Machine

/-- HALT (R123): `halted` <- true, no event. -/
def execHalt (s : State) : Host.Outcome State Fault Refusal :=
  .next { s with halted := true }.complete

end Sys2Proof.Machine
end

