-- ==== Sys2Proof/Machine/Uart.lean ====
section
/-! DEFINITION. The UART controller commands UART_CONSTRUCT, INITIALIZE, TRANSMIT and TRANSMIT_TEXT
(42_uart_controller.md). -/

namespace Sys2Proof.Machine

/-- UART_CONSTRUCT (R105): UnsupportedPlatform unless the base is UART_BASE, else nothing. -/
def execUartConstruct (base : Word) (s : State) : Host.Outcome State Fault Refusal :=
  if base.toNat = s.cfg.uartBase then .next s.complete
  else .next (s.raise (.unsupportedPlatform base))

/-- The four steps of INITIALIZE at a valid baud rate and the state change (R106 to R112); the write of step 1 makes a
non-empty `txq` a draw (R113). -/
def State.uartSequence (baud : Word) (s : State) : State :=
  let s1 := (s.memWrite (.reg .cr) 0).disturbQueue
  let s2 := s1.memWrite (.reg .ibrd) (ibrdWord baud)
  let s3 := s2.memWrite (.reg .fbrd) (fbrdWord baud)
  let s4 := s3.readIntoT (.reg .lcrh)
  let s5 := s4.memWrite (.reg .lcrh) (s4.t ||| lcrh8n1)
  let s6 := s5.memWrite (.reg .cr) crFifoPhase
  let s7 := s6.memWrite (.reg .cr) crEnable
  s7.setUart .initialized

/-- INITIALIZE (R106): InvalidBaud (R108), else the sequence. -/
def execUartInitialize (baud : Word) (s : State) : Host.Outcome State Fault Refusal :=
  if baudValid baud then .next (s.uartSequence baud).complete
  else .next (s.raise (.invalidBaud baud))

/-- TRANSMIT (R115): the two checks, then the write of zext_32(byte) to DR. -/
def execTransmit (byte : Byte) (s : State) : Host.Outcome State Fault Refusal :=
  match s.drFault byte with
  | some f => .next (s.raise f)
  | none => .next (s.drWrite (drWord byte)).complete

/-- TRANSMIT_TEXT (R118): TRANSMIT once per byte in order, with its checks. -/
def execTransmitText (text : List Byte) (s : State) : Host.Outcome State Fault Refusal :=
  .next (s.transmitBytes text).complete

end Sys2Proof.Machine
end

