-- ==== Sys2Proof/Machine/Dispatch.lean ====
section
/-! DEFINITION. The dispatch: one arm per command of opcode_table.json, each a direct call of its meaning. -/

namespace Sys2Proof.Machine

def exec (i : Instr) (s : State) : Host.Outcome State Fault Refusal :=
  match i with
  | .regRead addr => Sys2Proof.Machine.execRegRead addr s
  | .regWrite addr data => Sys2Proof.Machine.execRegWrite addr data s
  | .pinConstruct pin => Sys2Proof.Machine.execPinConstruct pin s
  | .setFunction pin code => Sys2Proof.Machine.execSetFunction pin code s
  | .setPullUpDown pin code => Sys2Proof.Machine.execSetPullUpDown pin code s
  | .uartConstruct base => Sys2Proof.Machine.execUartConstruct base s
  | .uartInitialize baud => Sys2Proof.Machine.execUartInitialize baud s
  | .transmit byte => Sys2Proof.Machine.execTransmit byte s
  | .transmitText text => Sys2Proof.Machine.execTransmitText text s
  | .halt => Sys2Proof.Machine.execHalt s

end Sys2Proof.Machine
end

