-- ==== Sys2Proof/WellFormed.lean ====
section
/-! DEFINITION. Which terms of the syntax a command word can express. The field widths are in the types; the one
check left is that the number of bytes of a text fits the operand n (30_encoding.md R73, F_TEXT). -/

namespace Sys2Proof

/-- A command the port can carry: the length of a text fits the 32 bits of operand `a` (R73). -/
def Instr.wf : Instr → Bool
  | .regRead _ => true
  | .regWrite _ _ => true
  | .pinConstruct _ => true
  | .setFunction _ _ => true
  | .setPullUpDown _ _ => true
  | .uartConstruct _ => true
  | .uartInitialize _ => true
  | .transmit _ => true
  | .transmitText text => decide (text.length < 2 ^ 32)
  | .halt => true

end Sys2Proof
end

