-- ==== Sys2Proof/Decode.lean ====
section
/-! DEFINITION. The decoder of the command port (30_encoding.md R72 to R74, R76, R84) and, after it, an encoder
written from the same tables. -/

namespace Sys2Proof

/-- op = CW[67:64] (R72). -/
def PortCommand.op (c : PortCommand) : BitVec 4 := c.cw.extractLsb' 64 4

/-- a = CW[63:32] (R72). -/
def PortCommand.a (c : PortCommand) : Word := c.cw.extractLsb' 32 32

/-- b = CW[31:0] (R72). -/
def PortCommand.b (c : PortCommand) : Word := c.cw.extractLsb' 0 32

/-- Why a command is illegal (R76); each is the fault IllegalCommand of the block (R129). -/
inductive DecodeError where
  /-- op is in 0xA to 0xF. -/
  | noSuchOperation
  /-- A bit that the format fixes at 0 is 1. -/
  | mustBeZero
  /-- The text does not have exactly `a` bytes. -/
  | textLength
  deriving DecidableEq, Repr

/-- The decoding procedure (R84): look up the row by op, check the must-be-0 bits of its format (R73) and the
length of the text (R76), extract the fields. A field the format ignores may have any value. -/
def decode (c : PortCommand) : Except DecodeError Instr :=
  match c.op with
  | 0x0#4 => .ok (.regRead c.a)
  | 0x1#4 => .ok (.regWrite c.a c.b)
  | 0x2#4 => .ok (.pinConstruct c.a)
  | 0x3#4 =>
    if c.b.extractLsb' 3 29 = 0 then .ok (.setFunction c.a (c.b.extractLsb' 0 3)) else .error .mustBeZero
  | 0x4#4 =>
    if c.b.extractLsb' 2 30 = 0 then .ok (.setPullUpDown c.a (c.b.extractLsb' 0 2)) else .error .mustBeZero
  | 0x5#4 => .ok (.uartConstruct c.a)
  | 0x6#4 => .ok (.uartInitialize c.a)
  | 0x7#4 =>
    if c.a.extractLsb' 8 24 = 0 then .ok (.transmit (c.a.extractLsb' 0 8)) else .error .mustBeZero
  | 0x8#4 => if c.text.length = c.a.toNat then .ok (.transmitText c.text) else .error .textLength
  | 0x9#4 => .ok .halt
  | _ => .error .noSuchOperation

/-- The command word {op, a, b} (R72). -/
def commandWord (op : BitVec 4) (a b : Word) : CommandWord := op ++ a ++ b

/-- The operation number of each command (R74). -/
def Instr.opNumber : Instr → BitVec 4
  | .regRead _ => 0x0
  | .regWrite _ _ => 0x1
  | .pinConstruct _ => 0x2
  | .setFunction _ _ => 0x3
  | .setPullUpDown _ _ => 0x4
  | .uartConstruct _ => 0x5
  | .uartInitialize _ => 0x6
  | .transmit _ => 0x7
  | .transmitText _ => 0x8
  | .halt => 0x9

/-- Operand field `a` of each command (R73); a field the format ignores is written as 0. -/
def Instr.fieldA : Instr → Word
  | .regRead addr => addr
  | .regWrite addr _ => addr
  | .pinConstruct pin => pin
  | .setFunction pin _ => pin
  | .setPullUpDown pin _ => pin
  | .uartConstruct base => base
  | .uartInitialize baud => baud
  | .transmit byte => byte.setWidth 32
  | .transmitText text => BitVec.ofNat 32 text.length
  | .halt => 0

/-- Operand field `b` of each command (R73); a field the format ignores is written as 0. -/
def Instr.fieldB : Instr → Word
  | .regRead _ => 0
  | .regWrite _ data => data
  | .pinConstruct _ => 0
  | .setFunction _ code => code.setWidth 32
  | .setPullUpDown _ code => code.setWidth 32
  | .uartConstruct _ => 0
  | .uartInitialize _ => 0
  | .transmit _ => 0
  | .transmitText _ => 0
  | .halt => 0

/-- Whether the format of a command uses field `a` (R73); only F_NONE ignores it. -/
def Instr.usesA : Instr → Bool
  | .regRead _ => true
  | .regWrite _ _ => true
  | .pinConstruct _ => true
  | .setFunction _ _ => true
  | .setPullUpDown _ _ => true
  | .uartConstruct _ => true
  | .uartInitialize _ => true
  | .transmit _ => true
  | .transmitText _ => true
  | .halt => false

/-- Whether the format of a command uses field `b` (R73): F_ADDR_DATA, F_PIN_FN and F_PIN_PUD do. -/
def Instr.usesB : Instr → Bool
  | .regRead _ => false
  | .regWrite _ _ => true
  | .pinConstruct _ => false
  | .setFunction _ _ => true
  | .setPullUpDown _ _ => true
  | .uartConstruct _ => false
  | .uartInitialize _ => false
  | .transmit _ => false
  | .transmitText _ => false
  | .halt => false

/-- The bytes that accompany a command: only TRANSMIT_TEXT has any (R84). -/
def Instr.textBytes : Instr → List Byte
  | .regRead _ => []
  | .regWrite _ _ => []
  | .pinConstruct _ => []
  | .setFunction _ _ => []
  | .setPullUpDown _ _ => []
  | .uartConstruct _ => []
  | .uartInitialize _ => []
  | .transmit _ => []
  | .transmitText text => text
  | .halt => []

/-- A command as the host presents it (R72): the word {op, a, b} with ignored fields 0, and the text. -/
def encode (i : Instr) : PortCommand :=
  { cw := commandWord i.opNumber i.fieldA i.fieldB, text := i.textBytes }

/-- The command whose bits are `w`, numbered as opcode_table.json numbers them, bits from `nbits` on taken as 0.
The table gives the `text` operand of TRANSMIT_TEXT no bits, so its `a` bytes are 0. -/
def tableCommand (nbits w : Nat) : PortCommand :=
  let c : PortCommand := { cw := BitVec.ofNat 68 (w % 2 ^ nbits), text := [] }
  if c.op = 0x8#4 then { c with text := List.replicate c.a.toNat 0 } else c

/-- What the decoder reads from a word of opcode_table.json. -/
def decodeTableWord (nbits w : Nat) : Option Instr := (decode (tableCommand nbits w)).toOption

end Sys2Proof
end

