-- ==== Sys2Proof/Machine/Port.lean ====
section
/-! DEFINITION. The command port (30_encoding.md R72): accepting the host's next command (40_register_accessor.md R85)
and putting one on the port. -/

namespace Sys2Proof.Machine

/-- Acceptance loads x[0] <- a and x[1] <- b (40 R85 (b)) and points `upc` at the first step (10 R34). -/
def State.load (c : PortCommand) (s : State) : State :=
  { s with a := c.a, b := c.b, upc := .busy c.op 0 }

/-- Take the host's next command: the decoded command and the state in which it is performed, or no command and the
state the step ends in. Not accepting, or nothing issued: nothing happens (40 R85 (a), 43 R124). A command that does
not decode ends in the fault IllegalCommand, which is all it sets (30 R76, 60 R130). -/
def State.fetch (s : State) : Option Instr × State :=
  if s.accepts then
    match s.port with
    | [] => (none, s)
    | c :: rest =>
      match decode c with
      | .ok i => (some i, { s with port := rest }.load c)
      | .error _ => (none, { s with port := rest }.raise (.illegalCommand c.cw))
  else (none, s)

/-- The host issues a command before the ones still waiting. -/
def State.present (c : PortCommand) (s : State) : State := { s with port := c :: s.port }

end Sys2Proof.Machine
end

