-- ==== Sys2Proof/Machine/Step.lean ====
section
/-! DEFINITION. One step of the machine: the transmit engine's free move, the host's next command, and the engine's
move at its completion. -/

namespace Sys2Proof.Machine

/-- One step. A configuration that violates WF_MAP is refused (00_scope.md R5). Otherwise the transmit engine moves a
free number of bytes (42_uart_controller.md R120), and the host's next command, if one is accepted, is performed to
completion (10_state.md R34), where the engine may have moved bytes again (42 R119, log 14); with none, the state is as
the engine left it. -/
def step (s : State) : Host.Outcome State Fault Refusal :=
  if s.cfg.WfMap then
    match s.engine.fetch with
    | (some i, t) => thenEngine (exec i t)
    | (none, t) => .next t
  else .refused .configurationNotAdmitted

/-- The state with the command of `w` (numbered as opcode_table.json numbers its bits) next on the command port. -/
def State.withFetchWord (s : State) (nbits w : Nat) : State := s.present (tableCommand nbits w)

end Sys2Proof.Machine
end

