-- ==== Sys2Proof/Machine/Assembler.lean ====
section
/-! DEFINITION. The ways to write a command down (30_encoding.md section 5): the assembler syntax (R80), the
expansion of the pseudo-instructions (R81), and the method-call form with handles (R82). -/

namespace Sys2Proof

/-- A blank between tokens. -/
def isBlank (ch : Char) : Bool := ch == ' ' || ch == '\t'

/-- The double quote that encloses a quoted string. -/
def quoteChar : Char := Char.ofNat 34

/-- Drop a comment, which `;` starts outside a quoted string (R80). -/
def stripComment (quoted : Bool) : List Char → List Char
  | [] => []
  | ch :: rest =>
    if ch == quoteChar then ch :: stripComment (!quoted) rest
    else if ch == ';' && !quoted then []
    else ch :: stripComment quoted rest

/-- Drop the blanks at both ends. -/
def trimBlanks (cs : List Char) : List Char :=
  ((cs.dropWhile isBlank).reverse.dropWhile isBlank).reverse

/-- The pieces between the characters that satisfy `sep`. -/
def splitAtChars (sep : Char → Bool) : List Char → List (List Char)
  | [] => [[]]
  | ch :: rest =>
    match splitAtChars sep rest with
    | [] => [[ch]]
    | piece :: pieces => if sep ch then [] :: piece :: pieces else (ch :: piece) :: pieces

/-- The value of a digit in bases up to 16. That a hexadecimal digit may be written in either case is the model's own
choice (DESIGN CHOICE, log 24): R6 and R80 say nothing of it. -/
def digitValue (ch : Char) : Option Nat :=
  let n := ch.toNat
  if 48 ≤ n ∧ n ≤ 57 then some (n - 48)
  else if 65 ≤ n ∧ n ≤ 70 then some (n - 55)
  else if 97 ≤ n ∧ n ≤ 102 then some (n - 87)
  else none

/-- Digits of a base, most significant first, after a value already read. -/
def digitsValue (base : Nat) : Nat → List Char → Option Nat
  | acc, [] => some acc
  | acc, ch :: rest =>
    match digitValue ch with
    | some d => if d < base then digitsValue base (base * acc + d) rest else none
    | none => none

/-- A literal (00_scope.md R6): `0x` hexadecimal, `0b` binary, else decimal; `_` only groups digits. R6
speaks of a `_` inside a literal and leaves open where it may stand: that every `_` is dropped, also one at either end
or within the prefix (`_5`, `5_`, `0_x10`), is the model's own choice (DESIGN CHOICE, log 24). -/
def parseNumber (cs : List Char) : Option Nat :=
  match cs.filter (· != '_') with
  | '0' :: 'x' :: d :: ds => digitsValue 16 0 (d :: ds)
  | '0' :: 'b' :: d :: ds => digitsValue 2 0 (d :: ds)
  | d :: ds => digitsValue 10 0 (d :: ds)
  | [] => none

/-- A number that fits a word. -/
def parseWord (cs : List Char) : Option Word :=
  (parseNumber cs).bind fun n => if n < 2 ^ 32 then some (BitVec.ofNat 32 n) else none

/-- A number that fits a byte. -/
def parseByte (cs : List Char) : Option Byte :=
  (parseNumber cs).bind fun n => if n < 2 ^ 8 then some (BitVec.ofNat 8 n) else none

/-- The location a register name stands for (R80; the names of 00_scope.md R8). -/
def parseRegister (cs : List Char) : Option Location :=
  [("FSEL[0]", Location.reg (.fsel 0)), ("FSEL[1]", .reg (.fsel 1)), ("FSEL[2]", .reg (.fsel 2)),
   ("FSEL[3]", .reg (.fsel 3)), ("FSEL[4]", .reg (.fsel 4)), ("FSEL[5]", .reg (.fsel 5)),
   ("PUD[0]", .reg (.pud 0)), ("PUD[1]", .reg (.pud 1)),
   ("PUDCLK[0]", .reg (.pudclk 0)), ("PUDCLK[1]", .reg (.pudclk 1)),
   ("DR", .dr), ("IBRD", .reg .ibrd), ("FBRD", .reg .fbrd), ("LCRH", .reg .lcrh), ("CR", .reg .cr)].findSome?
    fun entry => if entry.1.toList = cs then some entry.2 else none

/-- An address: a number, or a register name, which stands for its address (R80). -/
def parseAddress (c : Board) (cs : List Char) : Option Word :=
  match parseRegister cs with
  | some l => some (c.addr l)
  | none => parseWord cs

/-- A function variant by its name (R80). -/
def parseFunction (cs : List Char) : Option PinFunction :=
  [("Input", PinFunction.input), ("Output", .output), ("Alt0", .alt0), ("Alt1", .alt1), ("Alt2", .alt2),
   ("Alt3", .alt3), ("Alt4", .alt4), ("Alt5", .alt5)].findSome?
    fun entry => if entry.1.toList = cs then some entry.2 else none

/-- A pull variant by its name (R80). -/
def parsePull (cs : List Char) : Option PullVariant :=
  [("None", PullVariant.none), ("PullDown", .pullDown), ("PullUp", .pullUp)].findSome?
    fun entry => if entry.1.toList = cs then some entry.2 else none

/-- The bytes of a text: a quoted ASCII string, or numbers separated by blanks (R80). -/
def parseText (cs : List Char) : Option (List Byte) :=
  match cs with
  | [] => some []
  | ch :: rest =>
    if ch == quoteChar then
      let inside := rest.takeWhile (· != quoteChar)
      if rest.dropWhile (· != quoteChar) = [quoteChar] ∧ inside.all (fun x => decide (x.toNat < 128)) then
        some (inside.map fun x => BitVec.ofNat 8 x.toNat)
      else none
    else ((splitAtChars isBlank (ch :: rest)).filter (· != [])).mapM parseByte

/-- The operands of a command other than TRANSMIT_TEXT: separated by commas, blanks around them dropped (R80). -/
def parseOperands (cs : List Char) : List (List Char) :=
  if cs = [] then [] else (splitAtChars (· == ',') cs).map trimBlanks

/-- A command from its lower-case mnemonic and what follows it (R80). Names of variants become their codes. -/
def assembleCommand (c : Board) (mnemonic rest : List Char) : Option Instr :=
  if mnemonic = "transmit_text".toList then (parseText rest).map .transmitText
  else
    match parseOperands rest with
    | [] => if mnemonic = "halt".toList then some .halt else none
    | [x] =>
      if mnemonic = "reg_read".toList then (parseAddress c x).map .regRead
      else if mnemonic = "pin_construct".toList then (parseWord x).map .pinConstruct
      else if mnemonic = "uart_construct".toList then (parseWord x).map .uartConstruct
      else if mnemonic = "initialize".toList then (parseWord x).map .uartInitialize
      else if mnemonic = "transmit".toList then (parseByte x).map .transmit
      else none
    | [x, y] =>
      if mnemonic = "reg_write".toList then
        (parseAddress c x).bind fun addr => (parseWord y).map (.regWrite addr)
      else if mnemonic = "set_function".toList then
        (parseWord x).bind fun pin => (parseFunction y).map fun f => .setFunction pin f.code
      else if mnemonic = "set_pull_up_down".toList then
        (parseWord x).bind fun pin => (parsePull y).map fun v => .setPullUpDown pin v.code
      else none
    | _ => none

/-- One line of assembler text (R80): at most one command; `some none` is a line with no command on it. -/
def assembleLine (c : Board) (line : List Char) : Option (Option Instr) :=
  let cs := trimBlanks (stripComment false line)
  if cs = [] then some none
  else
    let mnemonic := cs.takeWhile (fun ch => !isBlank ch)
    (assembleCommand c mnemonic (trimBlanks (cs.dropWhile (fun ch => !isBlank ch)))).map some

/-- A program, one line after another (R80); none if a line is not of the syntax. -/
def assemble (c : Board) (lines : List String) : Option (List Instr) :=
  (lines.mapM fun line => assembleLine c line.toList).map (·.filterMap id)

/-- The expansion of the pseudo-instructions (R81) on a block configured as `c`; every other command stands for
itself, and so does a UART_CONSTRUCT that faults. -/
def Instr.expand (c : Board) : Instr → List Instr
  | .regRead addr => [.regRead addr]
  | .regWrite addr data => [.regWrite addr data]
  | .pinConstruct _ => []
  | .setFunction pin code => [.setFunction pin code]
  | .setPullUpDown pin code => [.setPullUpDown pin code]
  | .uartConstruct base => if base.toNat = c.uartBase then [] else [.uartConstruct base]
  | .uartInitialize baud => [.uartInitialize baud]
  | .transmit byte => [.transmit byte]
  | .transmitText text => text.map .transmit
  | .halt => [.halt]

/-- The bring-up sequence (43 R125) as the host issues it: what the source leaves unsaid, the two pins, their function,
the baud rate and the greeting, are arguments. -/
def bringUp (c : Board) (p q : Word) (f : PinFunction) (baud : Word) (greeting : List Byte) : List Instr :=
  [.pinConstruct p, .setFunction p f.code, .pinConstruct q, .setFunction q f.code,
   .uartConstruct (BitVec.ofNat 32 c.uartBase), .uartInitialize baud, .transmitText greeting, .halt]

/-- A pin handle: it carries the pin identifier and nothing else (41 R91, R82). -/
structure PinHandle where
  pin : Word
  deriving DecidableEq, Repr

/-- A UART handle: the base address `construct` was given (42 R104). -/
structure UartHandle where
  base : Word
  deriving DecidableEq, Repr

/-- The calls of the source's notation (R82). -/
inductive SourceCall where
  | read (address : Word)
  | write (address word : Word)
  | pinConstruct (pin : Word)
  | setFunction (h : PinHandle) (f : PinFunction)
  | setPullUpDown (h : PinHandle) (v : PullVariant)
  | uartConstruct (base : Word)
  | uartInitialize (u : UartHandle) (baud : Word)
  | transmit (u : UartHandle) (byte : Byte)
  | transmitText (u : UartHandle) (text : List Byte)
  deriving DecidableEq, Repr

/-- The command a call becomes (R82): the pin commands carry the identifier of the handle; the UART commands act on
the one UART, so a UART handle leaves nothing in the command. -/
def SourceCall.toInstr : SourceCall → Instr
  | .read address => .regRead address
  | .write address word => .regWrite address word
  | .pinConstruct pin => .pinConstruct pin
  | .setFunction h f => .setFunction h.pin f.code
  | .setPullUpDown h v => .setPullUpDown h.pin v.code
  | .uartConstruct base => .uartConstruct base
  | .uartInitialize _ baud => .uartInitialize baud
  | .transmit _ byte => .transmit byte
  | .transmitText _ text => .transmitText text

end Sys2Proof
end

