-- ==== Sys2Proof/Safety.lean ====
section
/-! DEFINITION. The terms in which claims are stated: the launch premises by their names (10_state.md R44), the ends of
a run (43_system.md R124, 60 R131), what a trace shows, the fairness assumption (42 R120), and the invariants. -/

namespace Sys2Proof.Machine

/-- NoFault (R44). -/
abbrev State.NoFault (s : State) : Prop := s.fault = none

/-- NotHalted (R44). -/
abbrev State.NotHalted (s : State) : Prop := s.halted = false

/-- Idle (R44): no command is part-way through. -/
abbrev State.Idle (s : State) : Prop := s.upc = .idle

/-- UartUninit (R44). -/
abbrev State.UartUninit (s : State) : Prop := s.uart = .uninitialized

/-- UartInit (R44). -/
abbrev State.UartInit (s : State) : Prop := s.uart = .initialized

/-- TxEmpty (R44). -/
abbrev State.TxEmpty (s : State) : Prop := s.txq = []

/-- The draws after `n` FIFO-full draws. -/
def Draws.afterFull : Nat → Draws → Draws
  | 0, d => d
  | n + 1, d => Draws.afterFull n d.useFull

/-- Each of the next `n` FIFO-full draws answers "not full". -/
def State.NoOverflowFor (n : Nat) (s : State) : Prop :=
  ∀ j < n, { s with draws := s.draws.afterFull j }.fifoIsFull = false

/-- How many DR writes a command makes when no check of it faults: one for TRANSMIT, one for each byte of
TRANSMIT_TEXT, one for a REG_WRITE to A_DR (42 R115, R118, 40 R89). -/
def drWrites (c : Board) : Instr → Nat
  | .regRead _ => 0
  | .regWrite addr _ => if addr = c.addr .dr then 1 else 0
  | .pinConstruct _ => 0
  | .setFunction _ _ => 0
  | .setPullUpDown _ _ => 0
  | .uartConstruct _ => 0
  | .uartInitialize _ => 0
  | .transmit _ => 1
  | .transmitText text => text.length
  | .halt => 0

/-- How many FIFO-full draws the next step takes if none of them answers "full": those of the command it performs, if
it performs one; an Uninitialized transmitter takes none (42 R115, R116). -/
def State.fullDrawsNext (s : State) : Nat :=
  if s.cfg.WfMap ∧ s.uart = .initialized then
    match s.fetch.1 with
    | some i => drWrites s.cfg i
    | none => 0
  else 0

/-- The states of the run from `s`: `s` and the next state of each (43 R124). -/
inductive Reaches (s : State) : State → Prop where
  | start : Reaches s s
  | next {t u : State} : Reaches s t → Machine.step t = .next u → Reaches s u

/-- NoOverflow (R44): every FIFO-full draw of the run from `s` answers "not full" (42 R117). -/
def State.NoOverflow (s : State) : Prop := ∀ t, Reaches s t → t.NoOverflowFor t.fullDrawsNext

/-- The launch premises that hold at reset (R44): WF_MAP, NoFault, NotHalted, Idle, UartUninit, TxEmpty. SingleContext
is no property of a state: the model has no move for another agent (20_memory.md R60, log 17). NoOverflow is not among
them: R44 calls it an assumption about the environment. -/
abbrev State.LaunchPremises (s : State) : Prop :=
  s.cfg.WfMap ∧ s.NoFault ∧ s.NotHalted ∧ s.Idle ∧ s.UartUninit ∧ s.TxEmpty

/-- The run has ended (R124): halted, a fault, or the command sequence exhausted with `upc` idle. -/
abbrev State.Ended (s : State) : Prop :=
  s.halted = true ∨ s.fault ≠ none ∨ (s.port = [] ∧ s.upc = .idle)

/-- A good end: the run has ended and no fault was raised. R124 calls end (a), halted, the normal end and R131 says
that a fault, end (b), is never good; whether end (c), the command sequence exhausted, is a good end it leaves open:
that it counts as one here is the model's own choice (DESIGN CHOICE, log 26). -/
abbrev State.GoodEnd (s : State) : Prop := s.Ended ∧ s.fault = none

/-- Perform commands one after the other from a state that has accepted the first, until one raises a fault (R122,
R131). -/
def execList : List Instr → State → Host.Outcome State Fault Refusal
  | [], s => .next s
  | i :: is, s =>
    match exec i s with
    | .next t => if t.fault = none then execList is t else .next t
    | .fault f => .fault f
    | .refused r => .refused r

/-- The commands that write CR (42 R113, 40 R89): an INITIALIZE that does not fault, and a REG_WRITE to A_CR. -/
def writesControl (c : Board) : Instr → Bool
  | .regRead _ => false
  | .regWrite addr _ => decide (addr = c.addr (.reg .cr))
  | .pinConstruct _ => false
  | .setFunction _ _ => false
  | .setPullUpDown _ _ => false
  | .uartConstruct _ => false
  | .uartInitialize baud => baudValid baud
  | .transmit _ => false
  | .transmitText _ => false
  | .halt => false

/-- The byte an event submits to the transmit engine under configuration `c`: that of a write to A_DR (10 R37). -/
def Event.submits (c : Board) : Event → List Byte
  | .wr addr value => if addr = c.addr .dr then [drByte value] else []
  | .rd _ _ => []
  | .dly _ => []

/-- The bytes submitted since reset, in order: those of the `Wr(A_DR, ·)` events of the trace (10 R37). -/
def State.submitted (s : State) : List Byte := s.trace.flatMap (Event.submits s.cfg)

/-- An event the block can make: a bus event at one of the fifteen addresses (20 R46, R47), or a wait of N_DELAY
iterations (41 R100). -/
def Event.possible (c : Board) : Event → Bool
  | .rd addr _ => (c.locate addr).isSome
  | .wr addr _ => (c.locate addr).isSome
  | .dly n => decide (n = nDelay)

/-- Every event of the trace is one the block can make. -/
abbrev State.TracePossible (s : State) : Prop := ∀ e ∈ s.trace, e.possible s.cfg = true

/-- How many events of each kind a list holds: reads, writes, waits. -/
structure TraceShape where
  reads : Nat
  writes : Nat
  waits : Nat
  deriving DecidableEq, Repr

/-- The shape one event adds to. -/
def Event.shape : Event → TraceShape
  | .rd _ _ => ⟨1, 0, 0⟩
  | .wr _ _ => ⟨0, 1, 0⟩
  | .dly _ => ⟨0, 0, 1⟩

/-- The shape of a list of events. -/
def traceShape : List Event → TraceShape
  | [] => ⟨0, 0, 0⟩
  | e :: es =>
    ⟨e.shape.reads + (traceShape es).reads, e.shape.writes + (traceShape es).writes,
      e.shape.waits + (traceShape es).waits⟩

/-- The tables of trace shapes (41 R103, 42 R121), with REG_READ, REG_WRITE and HALT (40 R86, R87, 43 R123): what a
command that raises no fault adds to the trace. -/
def commandShape : Instr → TraceShape
  | .regRead _ => ⟨1, 0, 0⟩
  | .regWrite _ _ => ⟨0, 1, 0⟩
  | .pinConstruct _ => ⟨0, 0, 0⟩
  | .setFunction _ _ => ⟨1, 1, 0⟩
  | .setPullUpDown _ _ => ⟨0, 4, 2⟩
  | .uartConstruct _ => ⟨0, 0, 0⟩
  | .uartInitialize _ => ⟨1, 6, 0⟩
  | .transmit _ => ⟨0, 1, 0⟩
  | .transmitText text => ⟨0, text.length, 0⟩
  | .halt => ⟨0, 0, 0⟩

/-- `tx_out` followed by `txq` is the sequence of bytes submitted since reset, in order (42 R120). -/
abbrev State.BytesInOrder (s : State) : Prop := s.submitted = s.txOut ++ s.txq

/-- `txq` holds at most FIFO_DEPTH bytes (10 R37). -/
abbrev State.QueueBounded (s : State) : Prop := s.txq.length ≤ s.cfg.fifoDepth

/-- An Initialized transmitter is a programmed one (42 R114, 70 R151): CR holds the enable pattern, LCRH the merged
bits, and IBRD and FBRD the words of one accepted baud rate. -/
def State.Programmed (s : State) : Prop :=
  s.uart = .initialized →
    s.regs.cr = crEnable ∧ s.regs.lcrh &&& lcrh8n1 = lcrh8n1 ∧
      ∃ baud : Word, baudValid baud = true ∧ s.regs.ibrd = ibrdWord baud ∧ s.regs.fbrd = fbrdWord baud

/-- An infinite run: each state is a next state of the one before. -/
def IsRun (run : Nat → State) : Prop := ∀ k, step (run k) = .next (run (k + 1))

/-- Weak fairness of the transmit engine (42 R120), a named assumption and no rule of the source: if from some moment
on the queue is never empty, the transmitter stays Initialized and IBRD does not hold 0 (93 U9), a byte leaves. -/
def WeaklyFair (run : Nat → State) : Prop :=
  ∀ k, (∀ j, k ≤ j → (run j).uart = .initialized ∧ (run j).txq ≠ [] ∧ (run j).regs.ibrd ≠ 0) →
    ∃ j, k ≤ j ∧ (run j).txOut.length < (run (j + 1)).txOut.length

end Sys2Proof.Machine
end

