-- ==== Sys2Proof/Certificates/Slice0/Obligations.lean ====
section
/-! DEFINITION. The statements for the provers, file by file of spec/. A premise `s.cfg.WfMap` is WF_MAP of
00_scope.md R5. Every statement ranges over all states, hence over every configuration, register image and list of
draws; what it says of a draw holds for every value of the draw. -/

open Sys2Proof Sys2Proof.Machine

/-! ### The command port: 30_encoding.md -/

/-- R84 with the formats of R73 (decision D14 of the spec): a command decodes to an instruction exactly if its
operation number, the operand fields its format uses and, for TRANSMIT_TEXT, its text are those of the instruction. -/
def Obligations.DecodeFollowsTheFormats : Prop :=
  ∀ (c : PortCommand) (i : Instr),
    decode c = .ok i ↔
      i.wf = true ∧ c.op = i.opNumber ∧ (i.usesA = true → c.a = i.fieldA) ∧ (i.usesB = true → c.b = i.fieldB) ∧
        (c.op = 0x8#4 → c.text = i.textBytes)

/-- R72 to R74, R84 (decision D14 of the spec): every well-formed command, with every operand at every value, is read
back from its encoding. -/
def Obligations.DecodeOfEncode : Prop :=
  ∀ i : Instr, i.wf = true → decode (encode i) = .ok i

/-- Words of 95_test_vectors.md, one for each row of R74, decode to the command they spell. -/
def Obligations.SpecWordsDecode : Prop :=
  decode ⟨0x0_3F200004_00000000#68, []⟩ = .ok (.regRead 0x3F200004) ∧
  decode ⟨0x1_3F200000_09249249#68, []⟩ = .ok (.regWrite 0x3F200000 0x09249249) ∧
  decode ⟨0x2_00000036_00000000#68, []⟩ = .ok (.pinConstruct 54) ∧
  decode ⟨0x3_0000000E_00000004#68, []⟩ = .ok (.setFunction 14 0b100) ∧
  decode ⟨0x4_0000001F_00000002#68, []⟩ = .ok (.setPullUpDown 31 0b10) ∧
  decode ⟨0x5_3F201000_00000000#68, []⟩ = .ok (.uartConstruct 0x3F201000) ∧
  decode ⟨0x6_0001C200_00000000#68, []⟩ = .ok (.uartInitialize 115200) ∧
  decode ⟨0x7_000000FF_00000000#68, []⟩ = .ok (.transmit 0xFF) ∧
  decode ⟨0x8_00000002_00000000#68, [0x48, 0x69]⟩ = .ok (.transmitText [0x48, 0x69]) ∧
  decode ⟨0x9_DEADBEEF_12345678#68, []⟩ = .ok .halt

/-- R76 (decision D17 of the spec): which commands spell no operation, and that such a command, when it is taken,
raises IllegalCommand: it sets the fault mark and makes no bus event (`upc` stays idle; that the command leaves the
port is the model's choice, log 25). -/
def Obligations.IllegalCommandsFault : Prop :=
  (∀ c : PortCommand,
    (∃ e, decode c = .error e) ↔
      0x9#4 < c.op ∨ (c.op = 0x3#4 ∧ c.b >>> 3 ≠ 0) ∨ (c.op = 0x4#4 ∧ c.b >>> 2 ≠ 0) ∨
        (c.op = 0x7#4 ∧ c.a >>> 8 ≠ 0) ∨ (c.op = 0x8#4 ∧ c.text.length ≠ c.a.toNat)) ∧
  ∀ (s : State) (c : PortCommand) (rest : List PortCommand) (e : DecodeError),
    s.cfg.WfMap → s.accepts = true → s.port = c :: rest → decode c = .error e →
      step s = .next { s.engine with port := rest, fault := some (.illegalCommand c.cw) }

/-- R66, R68 (decisions D8, D9 of the spec): both code tables are one to one, every 3-bit code names a function
variant, and 0b11 is the one pull code that names none. -/
def Obligations.CodeTablesAreBijections : Prop :=
  (∀ f : PinFunction, PinFunction.ofCode f.code = f) ∧ (∀ c : BitVec 3, (PinFunction.ofCode c).code = c) ∧
  (∀ v : PullVariant, PullVariant.ofCode v.code = some v) ∧
  ∀ c : BitVec 2, (PullVariant.ofCode c = none ↔ c = 0b11) ∧
    ∀ v, PullVariant.ofCode c = some v → v.code = c

/-- R81 (a): TRANSMIT_TEXT is TRANSMIT of each of its bytes in order, the first fault ending it. -/
def Obligations.TransmitTextIsRepeatedTransmit : Prop :=
  ∀ (s : State) (text : List Byte), s.NoFault → s.Idle →
    exec (.transmitText text) s = execList ((Instr.transmitText text).expand s.cfg) s

/-! ### The address map and the bus: 00_scope.md, 20_memory.md -/

/-- R5, R47 (decision D7 of the spec): under WF_MAP each of the fifteen locations is found at its own address and
nowhere else, every address is a multiple of 4, and every PUD_OFF between 0x18 and 0xF64 that is a multiple of 4 is
admitted. -/
def Obligations.AddressMapIsOneToOne : Prop :=
  (∀ c : Board, c.WfMap → ∀ (l : Location) (a : Word), c.locate a = some l ↔ a = c.addr l) ∧
  (∀ c : Board, c.WfMap → ∀ l : Location, (c.addr l).toNat = c.addrNat l ∧ (c.addr l).toNat % 4 = 0) ∧
  ∀ c : Board, 0x18 ≤ c.pudOff → c.pudOff ≤ 0xF64 → c.pudOff % 4 = 0 → c.WfMap

/-- R52: a read of a register answers the word it holds, a read of DR a draw; it appends its one event, and nothing
else changes but the micro-step pointer and, at DR, the draws. -/
def Obligations.MemReadOnlyTraces : Prop :=
  ∀ s : State,
    (∀ r : Reg, s.memRead (.reg r) = (s.regs.read r,
      { s with trace := s.trace ++ [.rd (s.cfg.addr (.reg r)) (s.regs.read r)], upc := s.upc.next })) ∧
    ∃ d : Draws, s.memRead .dr = (s.draws.drWord,
      { s with trace := s.trace ++ [.rd (s.cfg.addr .dr) s.draws.drWord], upc := s.upc.next, draws := d })

/-- R53, R14 (decision D12 of the spec, log 20): a write to a register appends its event and replaces the whole word
of that register, so that a read of it then answers the word and every other register reads as before; a write to DR
submits its low byte and stores nothing. -/
def Obligations.MemWriteThenRead : Prop :=
  ∀ (s : State) (v : Word),
    (∀ r : Reg, (s.memWrite (.reg r) v).trace = s.trace ++ [.wr (s.cfg.addr (.reg r)) v] ∧
      ((s.memWrite (.reg r) v).memRead (.reg r)).1 = v ∧
      (∀ r' : Reg, r' ≠ r → ((s.memWrite (.reg r) v).memRead (.reg r')).1 = (s.memRead (.reg r')).1) ∧
      (s.memWrite (.reg r) v).txq = s.txq) ∧
    (s.memWrite .dr v).trace = s.trace ++ [.wr (s.cfg.addr .dr) v] ∧
    (s.memWrite .dr v).txq = s.txq ++ [v.setWidth 8] ∧
    (s.memWrite .dr v).regs = s.regs

/-! ### Reset and the step: 10_state.md, 40_register_accessor.md R85, 60_exceptions.md -/

/-- R42 (decision D29 of the spec): the state at the start of a run, for every configuration and every register image
R0. That State.reset is the launch of CFG_A with some image is the model's choice (logs 1 and 3). -/
def Obligations.LaunchState : Prop :=
  (∀ (c : Board) (image : RegFile),
    (State.launch c image).cfg = c ∧ (State.launch c image).regs = image ∧
    (State.launch c image).uart = .uninitialized ∧ (State.launch c image).halted = false ∧
    (State.launch c image).fault = none ∧ (State.launch c image).upc = .idle ∧
    (∀ p : Fin 54, (State.launch c image).pull[p] = .unspecified) ∧
    (∀ (p : Nat) (n : Fin 6), p ≤ 53 → n.val = p / 10 →
      (State.launch c image).pinFn p = PinFunction.ofCode (image.fsel[n].extractLsb' (p % 10 * 3) 3)) ∧
    (State.launch c image).txq = [] ∧ (State.launch c image).txOut = [] ∧ (State.launch c image).trace = []) ∧
  ∃ image : RegFile, State.reset = State.launch Board.cfgA image

/-- R44 (decision D29 of the spec): at the start of a run of an admitted configuration the launch premises hold; so
they do at State.reset. -/
def Obligations.LaunchPremisesHold : Prop :=
  (∀ (c : Board) (image : RegFile), c.WfMap → (State.launch c image).LaunchPremises) ∧ State.reset.LaunchPremises

/-- R85, R34, R119 (decisions D6, D30 of the spec; logs 7, 14, 15): when the block accepts commands and the host's
next command decodes to `i`, the step is `exec` of `i`, followed by a move of the transmit engine: before, the engine
has made its free move, the command has left the port, and acceptance has loaded A and B with its operand fields and
pointed `upc` at its first step. -/
def Obligations.StepRunsTheDecodedCommand : Prop :=
  ∀ (s : State) (c : PortCommand) (rest : List PortCommand) (i : Instr),
    s.cfg.WfMap → s.NoFault → s.NotHalted → s.Idle → s.port = c :: rest → decode c = .ok i →
      ∃ t, exec i { s.engine with port := rest, a := c.a, b := c.b, upc := .busy c.op 0 } = .next t ∧
        step s = .next t.engine

/-- R85 (a), R124, R131 (decisions D30, D32 of the spec; 93 U20; logs 9, 14): a halted or faulted block, and one for
which no command is waiting, performs no command; its step changes nothing but what the transmit engine moves. -/
def Obligations.NoCommandUnlessAccepting : Prop :=
  ∀ s : State, s.cfg.WfMap → (s.halted = true ∨ s.fault ≠ none ∨ s.upc ≠ .idle ∨ s.port = []) →
    step s = .next s.engine

/-- R120, R119, R37 (decision D26 of the spec; log 14): the engine moves bytes from the head of the queue to the end
of the output, in order, only while `uart_state` is Initialized and the queue is not empty; it changes nothing else
but the draws; and every number of bytes it could move is one that the draws allow, so when a command has completed
its bytes may be anywhere between `txq` and `tx_out`. -/
def Obligations.EngineMovesBytesInOrder : Prop :=
  (∀ s : State,
    ((s.uart = .uninitialized ∨ s.txq = []) → s.engine = s) ∧
    ∃ (n : Nat) (d : Draws),
      s.engine = { s with txOut := s.txOut ++ s.txq.take n, txq := s.txq.drop n, draws := d }) ∧
  (∀ (s : State) (n : Nat), s.UartInit →
    ∃ (moves : Supply Nat) (d : Draws), { s with draws := { s.draws with engineMoves := moves } }.engine =
      { s with txOut := s.txOut ++ s.txq.take n, txq := s.txq.drop n, draws := d }) ∧
  ∀ (s : State) (c : PortCommand) (rest : List PortCommand) (i : Instr) (text : List Byte) (n : Nat),
    s.cfg.WfMap → s.NoFault → s.NotHalted → s.Idle → s.UartInit → s.port = c :: rest →
    decode c = .ok i → (i = .transmitText text ∨ ∃ y, i = .transmit y ∧ text = [y]) →
    s.NoOverflowFor text.length →
    s.txq.length + text.length ≤ s.cfg.fifoDepth →
      ∃ (moves : Supply Nat) (t : State),
        step { s with draws := { s.draws with engineMoves := moves } } = .next t ∧ t.NoFault ∧
        t.txOut = s.txOut ++ (s.txq ++ text).take n ∧ t.txq = (s.txq ++ text).drop n

/-- R5 (decision D7 of the spec; 93 U27; that it is `step` that refuses is log 19): a configuration that violates
WF_MAP is refused. Under an admitted one every step answers a next state: of a step that raises a fault, and of one of
a halted or faulted block, where 93 U20 says "stuck" (R85, R124, R131; decisions D6, D30, D32 of the spec), that is
the model's own choice (logs 8 and 9). -/
def Obligations.StepAnswersUnlessRefused : Prop :=
  ∀ s : State, (s.cfg.WfMap → ∃ t, step s = .next t) ∧
    (¬ s.cfg.WfMap → step s = .refused .configurationNotAdmitted)

/-- R31: `halted` is false at reset, set by HALT and by nothing else, never cleared, and while it is true the block
accepts no command and performs no bus event. -/
def Obligations.HaltedIsTerminal : Prop :=
  (∀ (c : Board) (image : RegFile), (State.launch c image).halted = false) ∧
  (∀ (i : Instr) (s t : State), exec i s = .next t → (t.halted = true ↔ s.halted = true ∨ i = .halt)) ∧
  ∀ s t : State, s.halted = true → step s = .next t →
    t.halted = true ∧ t.trace = s.trace ∧ t.port = s.port ∧ t.regs = s.regs ∧ t.fault = s.fault

/-- R32, R131 (decision D30 of the spec): a raised fault is never cleared and no command is accepted after it. -/
def Obligations.FaultIsFinal : Prop :=
  ∀ s t : State, s.fault ≠ none → step s = .next t →
    t.fault = s.fault ∧ t.trace = s.trace ∧ t.port = s.port ∧ t.regs = s.regs ∧ t.pull = s.pull ∧
      t.halted = s.halted

/-- R130 (decision D30 of the spec): a command that raises a fault changes nothing else: no register, no hidden state,
no event; the exception is TRANSMIT_TEXT. -/
def Obligations.FaultingCommandsArePrecise : Prop :=
  ∀ (i : Instr) (s t : State), s.NoFault → exec i s = .next t → t.fault ≠ none →
    (∀ text, i ≠ .transmitText text) → t = { s with fault := t.fault, upc := .idle }

/-! ### The register accessor: 40_register_accessor.md -/

/-- R86, R14 (decision D12 of the spec): REG_READ of a register answers the word it holds in `rdata`, traces one event
and changes nothing else. -/
def Obligations.RegReadOfARegister : Prop :=
  ∀ (s : State) (r : Reg), s.cfg.WfMap →
    exec (.regRead (s.cfg.addr (.reg r))) s =
      .next { s with
        rdata := s.regs.read r
        trace := s.trace ++ [.rd (s.cfg.addr (.reg r)) (s.regs.read r)]
        upc := .idle }

/-- R86, R14: REG_READ of DR answers the draw `s.draws.drWord`, any value (log 10), and traces one event. -/
def Obligations.RegReadOfTheDataRegister : Prop :=
  ∀ s : State, s.cfg.WfMap →
    exec (.regRead (s.cfg.addr .dr)) s =
      .next { s with
        rdata := s.draws.drWord
        trace := s.trace ++ [.rd (s.cfg.addr .dr) s.draws.drWord]
        draws := s.draws.useDrWord
        upc := .idle }

/-- R49, R51, R86, R87 (decision D11 of the spec): an address that is none of the fifteen, as every misaligned one is,
raises UnbackedAddress with no bus event. -/
def Obligations.UnbackedAddressFaults : Prop :=
  ∀ (s : State) (addr data : Word),
    ((∀ l : Location, s.cfg.addr l ≠ addr) ∨ (s.cfg.WfMap ∧ addr.toNat % 4 ≠ 0)) →
      exec (.regRead addr) s = .next { s with fault := some (.unbackedAddress addr), upc := .idle } ∧
      exec (.regWrite addr data) s = .next { s with fault := some (.unbackedAddress addr), upc := .idle }

/-- R87: REG_WRITE to FSEL[n] stores the word, traces one event and changes nothing else; so `pin_fn` of each of its
ten pins is the decode of the written field (R35, decision D37 of the spec). -/
def Obligations.RegWriteOfFunctionSelect : Prop :=
  ∀ (s : State) (n : Fin 6) (v : Word), s.cfg.WfMap →
    ∃ t, exec (.regWrite (s.cfg.addr (.reg (.fsel n))) v) s = .next t ∧
      t = { s with
        regs := s.regs.write (.fsel n) v
        trace := s.trace ++ [.wr (s.cfg.addr (.reg (.fsel n))) v]
        upc := .idle } ∧
      ∀ p, p ≤ 53 → p / 10 = n.val → t.pinFn p = PinFunction.ofCode (v.extractLsb' (p % 10 * 3) 3)

/-- R88 (decision D19 of the spec): REG_WRITE to PUD[k] or PUDCLK[k] stores the word and makes `pull[p]` Unspecified
for every pin of chain k and for no other. -/
def Obligations.RegWriteOfPullRegisters : Prop :=
  ∀ (s : State) (k : Fin 2) (r : Reg) (v : Word), s.cfg.WfMap → (r = .pud k ∨ r = .pudclk k) →
    ∃ pull : Vector PullState 54,
      (∀ p : Fin 54, pull[p] = if p.val / 32 = k.val then .unspecified else s.pull[p]) ∧
      exec (.regWrite (s.cfg.addr (.reg r)) v) s =
        .next { s with
          regs := s.regs.write r v
          pull := pull
          trace := s.trace ++ [.wr (s.cfg.addr (.reg r)) v]
          upc := .idle }

/-- R89 (a) (decision D28 of the spec): REG_WRITE to IBRD, FBRD, LCRH or CR stores the word and makes `uart_state`
Uninitialized; at CR a non-empty queue becomes a draw no longer than it was, and an empty one stays empty
(log 10). -/
def Obligations.RegWriteOfUartRegisters : Prop :=
  ∀ (s : State) (r : Reg) (v : Word), s.cfg.WfMap → (r = .ibrd ∨ r = .fbrd ∨ r = .lcrh ∨ r = .cr) →
    ∃ (q : List Byte) (d : Draws),
      q.length ≤ s.txq.length ∧ (r ≠ .cr ∨ s.txq = [] → q = s.txq ∧ d = s.draws) ∧
      exec (.regWrite (s.cfg.addr (.reg r)) v) s =
        .next { s with
          regs := s.regs.write r v
          uart := .uninitialized
          txq := q
          trace := s.trace ++ [.wr (s.cfg.addr (.reg r)) v]
          draws := d
          upc := .idle }

/-- R89 (b) (decision D28 of the spec): REG_WRITE to DR is the DR write of TRANSMIT with the byte v[7:0], the whole
word being traced, with the same two checks in the same order (decisions D25, D26), and the byte joins the tail of the
queue. Where the queue already holds FIFO_DEPTH bytes, a "not full" answer means that the engine has moved bytes to
the output by then (log 2). -/
def Obligations.RegWriteOfTheDataRegister : Prop :=
  ∀ (s : State) (v : Word), s.cfg.WfMap →
    (s.UartUninit → exec (.regWrite (s.cfg.addr .dr) v) s =
      .next { s with fault := some .uartNotInitialized, upc := .idle }) ∧
    (s.UartInit → s.fifoIsFull = true → exec (.regWrite (s.cfg.addr .dr) v) s =
      .next { s with fault := some (.uartFifoOverflow (v.setWidth 8)), upc := .idle }) ∧
    (s.UartInit → s.fifoIsFull = false →
      ∃ t, exec (.regWrite (s.cfg.addr .dr) v) s = .next t ∧
        t.txOut ++ t.txq = s.txOut ++ s.txq ++ [v.setWidth 8] ∧ t.txq.getLast? = some (v.setWidth 8) ∧
        (s.txq.length < s.cfg.fifoDepth → t.txq = s.txq ++ [v.setWidth 8]) ∧
        t = { s with
          txOut := t.txOut
          txq := t.txq
          trace := s.trace ++ [.wr (s.cfg.addr .dr) v]
          draws := s.draws.useFull
          upc := .idle })

/-- The frame of REG_READ and REG_WRITE, on every path: only the addressed register changes, `pull` only for a pin of
a chain whose pull or clock register is addressed, `uart_state` only by a write to IBRD, FBRD, LCRH or CR, the queue
and the output only by a write to CR or DR, `rdata` only by a read. That `rdata` keeps its word after another command
is the model's choice (log 6), that A, B and T do so is log 4. -/
def Obligations.AccessorFrame : Prop :=
  (∀ (s t : State) (addr : Word), exec (.regRead addr) s = .next t →
    t = { s with rdata := t.rdata, trace := t.trace, fault := t.fault, draws := t.draws, upc := t.upc }) ∧
  ∀ (s t : State) (addr data : Word), exec (.regWrite addr data) s = .next t →
    t.cfg = s.cfg ∧ t.halted = s.halted ∧ t.a = s.a ∧ t.b = s.b ∧ t.t = s.t ∧ t.dly = s.dly ∧ t.rdata = s.rdata ∧
    t.port = s.port ∧
    (∀ r : Reg, s.cfg.addr (.reg r) ≠ addr → t.regs.read r = s.regs.read r) ∧
    (∀ p : Fin 54, (∀ k : Fin 2, k.val = p.val / 32 →
      s.cfg.addr (.reg (.pud k)) ≠ addr ∧ s.cfg.addr (.reg (.pudclk k)) ≠ addr) → t.pull[p] = s.pull[p]) ∧
    ((∀ r ∈ [Reg.ibrd, .fbrd, .lcrh, .cr], s.cfg.addr (.reg r) ≠ addr) → t.uart = s.uart) ∧
    (s.cfg.addr .dr ≠ addr → t.txOut = s.txOut) ∧
    (s.cfg.addr .dr ≠ addr → s.cfg.addr (.reg .cr) ≠ addr → t.txq = s.txq ∧ t.draws = s.draws)

/-! ### The pin controller: 41_pin_controller.md -/

/-- R93: PIN_CONSTRUCT touches nothing, for every pin identifier, valid or not; the command completes. -/
def Obligations.PinConstructTouchesNothing : Prop :=
  ∀ (s : State) (pin : Word), exec (.pinConstruct pin) s = .next { s with upc := .idle }

/-- R94: SET_FUNCTION. Its encoding (decision D14 of the spec); on a valid pin p, with n = p / 10 and s = (p % 10) *
3, the read of FSEL[n] into T and the write back of the word with the field cleared and the code OR-ed in, and nothing
else; the function output of p becomes the variant of the code and no other pin's changes; on an invalid pin the fault
(decision D16). That T still holds the word read when the command has ended is the model's own choice (log 4): R33
says that T then holds no value. -/
def Obligations.SetFunctionReadsModifiesWrites : Prop :=
  (∀ (pin : Word) (code : BitVec 3) (text : List Byte),
    decode ⟨commandWord 0x3 pin (code.setWidth 32), text⟩ = .ok (.setFunction pin code)) ∧
  (∀ (pin b : Word) (text : List Byte), b >>> 3 ≠ 0 →
    decode ⟨commandWord 0x3 pin b, text⟩ = .error .mustBeZero) ∧
  (∀ (s : State) (pin : Word) (code : BitVec 3) (n : Fin 6), pin.toNat ≤ 53 → n.val = pin.toNat / 10 →
    ∃ t, exec (.setFunction pin code) s = .next t ∧
      t = { s with
        t := s.regs.fsel[n]
        regs := s.regs.write (.fsel n)
          ((s.regs.fsel[n] &&& ~~~(0b111#32 <<< (pin.toNat % 10 * 3))) |||
            (code.setWidth 32 <<< (pin.toNat % 10 * 3)))
        trace := s.trace ++
          [.rd (s.cfg.addr (.reg (.fsel n))) s.regs.fsel[n],
            .wr (s.cfg.addr (.reg (.fsel n)))
              ((s.regs.fsel[n] &&& ~~~(0b111#32 <<< (pin.toNat % 10 * 3))) |||
                (code.setWidth 32 <<< (pin.toNat % 10 * 3)))]
        upc := .idle } ∧
      t.pinFn pin.toNat = PinFunction.ofCode code ∧
      ∀ q, q ≤ 53 → q ≠ pin.toNat → t.pinFn q = s.pinFn q) ∧
  ∀ (s : State) (pin : Word) (code : BitVec 3), 53 < pin.toNat →
    exec (.setFunction pin code) s = .next { s with fault := some (.invalidPinIdentifier pin), upc := .idle }

/-- R95: SET_FUNCTION disturbs nothing else: every bit of FSEL[n] outside the field is preserved, the field holds the
code, no other register changes, and `pull`, `uart_state` and `txq` are untouched. -/
def Obligations.SetFunctionPreservesOtherBits : Prop :=
  ∀ (s t : State) (pin : Word) (code : BitVec 3) (n : Fin 6), pin.toNat ≤ 53 → n.val = pin.toNat / 10 →
    exec (.setFunction pin code) s = .next t →
      t.regs.fsel[n] &&& ~~~(0b111#32 <<< (pin.toNat % 10 * 3)) =
        s.regs.fsel[n] &&& ~~~(0b111#32 <<< (pin.toNat % 10 * 3)) ∧
      t.regs.fsel[n].extractLsb' (pin.toNat % 10 * 3) 3 = code ∧
      (∀ i : Nat, i < pin.toNat % 10 * 3 ∨ pin.toNat % 10 * 3 + 3 ≤ i →
        t.regs.fsel[n].getLsbD i = s.regs.fsel[n].getLsbD i) ∧
      (∀ r : Reg, r ≠ .fsel n → t.regs.read r = s.regs.read r) ∧
      t.pull = s.pull ∧ t.uart = s.uart ∧ t.txq = s.txq

/-- R96 (derived in the spec from R94): SET_FUNCTION twice with the same code leaves the registers as once, while the
trace has four events. -/
def Obligations.SetFunctionIsIdempotent : Prop :=
  ∀ (s t u : State) (pin : Word) (code : BitVec 3) (n : Fin 6), pin.toNat ≤ 53 → n.val = pin.toNat / 10 →
    exec (.setFunction pin code) s = .next t → exec (.setFunction pin code) t = .next u →
      u.regs = t.regs ∧
      u.trace = s.trace ++
        [.rd (s.cfg.addr (.reg (.fsel n))) s.regs.fsel[n], .wr (s.cfg.addr (.reg (.fsel n))) t.regs.fsel[n],
          .rd (s.cfg.addr (.reg (.fsel n))) t.regs.fsel[n], .wr (s.cfg.addr (.reg (.fsel n))) t.regs.fsel[n]]

/-- R98: SET_PULL_UP_DOWN. Its encoding (decision D14 of the spec); on a valid pin p and a code that names a variant,
with k = p / 32, the six events in order, PUD[k] = PUDCLK[k] = 0 and `pull[p]` = the variant at the end, and nothing
else; the two faults in their order (decisions D16, D17). That the latch takes its value when the six steps are done
is decision D19; that the delay counter is kept and ends its waits at 0 is the model's own choice (R38, log 5). -/
def Obligations.SetPullPerformsTheHandshake : Prop :=
  (∀ (pin : Word) (code : BitVec 2) (text : List Byte),
    decode ⟨commandWord 0x4 pin (code.setWidth 32), text⟩ = .ok (.setPullUpDown pin code)) ∧
  (∀ (pin b : Word) (text : List Byte), b >>> 2 ≠ 0 →
    decode ⟨commandWord 0x4 pin b, text⟩ = .error .mustBeZero) ∧
  (∀ (s : State) (pin : Word) (code : BitVec 2) (v : PullVariant) (k : Fin 2), pin.toNat ≤ 53 →
    k.val = pin.toNat / 32 → PullVariant.ofCode code = some v →
      exec (.setPullUpDown pin code) s =
        .next { s with
          regs := (s.regs.write (.pud k) 0).write (.pudclk k) 0
          pull := s.pull.setIfInBounds pin.toNat (.latched v)
          dly := 0
          trace := s.trace ++
            [.wr (s.cfg.addr (.reg (.pud k))) (code.setWidth 32), .dly 150,
              .wr (s.cfg.addr (.reg (.pudclk k))) (1#32 <<< (pin.toNat % 32)), .dly 150,
              .wr (s.cfg.addr (.reg (.pud k))) 0, .wr (s.cfg.addr (.reg (.pudclk k))) 0]
          upc := .idle }) ∧
  (∀ (s : State) (pin : Word) (code : BitVec 2), 53 < pin.toNat →
    exec (.setPullUpDown pin code) s =
      .next { s with fault := some (.invalidPinIdentifier pin), upc := .idle }) ∧
  ∀ (s : State) (pin : Word), pin.toNat ≤ 53 →
    exec (.setPullUpDown pin 0b11) s = .next { s with fault := some (.reservedCode 0b11), upc := .idle }

/-- R99 (decision D19 of the spec): after the handshake `pull[p]` is the variant whose code was written, and `pull[q]`
is unchanged for every other pin q. -/
def Obligations.LatchReachesOnlyThatPin : Prop :=
  ∀ (s t : State) (pin : Word) (v : PullVariant), pin.toNat ≤ 53 →
    exec (.setPullUpDown pin v.code) s = .next t →
      ∀ q : Fin 54, t.pull[q] = if q.val = pin.toNat then .latched v else s.pull[q]

/-- R45, R102 (both derived in the spec): the two pin properties and the two pull chains are independent: SET_FUNCTION
changes no pull state and no pull or clock register; SET_PULL_UP_DOWN on a pin of one chain changes no function
output, no FSEL register and no register of the other chain. -/
def Obligations.PinPropertiesAreIndependent : Prop :=
  (∀ (s t : State) (pin : Word) (code : BitVec 3), exec (.setFunction pin code) s = .next t →
    t.pull = s.pull ∧ ∀ k : Fin 2, t.regs.pud[k] = s.regs.pud[k] ∧ t.regs.pudclk[k] = s.regs.pudclk[k]) ∧
  ∀ (s t : State) (pin : Word) (code : BitVec 2), exec (.setPullUpDown pin code) s = .next t →
    (∀ q, t.pinFn q = s.pinFn q) ∧ t.regs.fsel = s.regs.fsel ∧
    ∀ k : Fin 2, k.val ≠ pin.toNat / 32 → t.regs.pud[k] = s.regs.pud[k] ∧ t.regs.pudclk[k] = s.regs.pudclk[k]

/-- The frame of the three pin commands, on every path: no register but FSEL[p / 10] of SET_FUNCTION and PUD[p / 32],
PUDCLK[p / 32] of SET_PULL_UP_DOWN changes; the UART side, `rdata`, `halted`, A, B and the draws are untouched. That
`rdata` and A and B keep their words is the model's choice (logs 6 and 4). -/
def Obligations.PinCommandsFrame : Prop :=
  ∀ (i : Instr) (s t : State) (pin : Word),
    ((∃ code, i = .setFunction pin code) ∨ (∃ code, i = .setPullUpDown pin code) ∨ i = .pinConstruct pin) →
    exec i s = .next t →
      t.cfg = s.cfg ∧ t.uart = s.uart ∧ t.halted = s.halted ∧ t.a = s.a ∧ t.b = s.b ∧ t.txq = s.txq ∧
      t.txOut = s.txOut ∧ t.rdata = s.rdata ∧ t.port = s.port ∧ t.draws = s.draws ∧
      ((∀ code, i ≠ .setFunction pin code) → t.t = s.t ∧ ∀ n, t.regs.read (.fsel n) = s.regs.read (.fsel n)) ∧
      ((∀ code, i ≠ .setPullUpDown pin code) → t.pull = s.pull ∧ t.dly = s.dly ∧
        ∀ k, t.regs.read (.pud k) = s.regs.read (.pud k) ∧ t.regs.read (.pudclk k) = s.regs.read (.pudclk k)) ∧
      (∀ n : Fin 6, n.val ≠ pin.toNat / 10 → t.regs.read (.fsel n) = s.regs.read (.fsel n)) ∧
      (∀ k : Fin 2, k.val ≠ pin.toNat / 32 →
        t.regs.read (.pud k) = s.regs.read (.pud k) ∧ t.regs.read (.pudclk k) = s.regs.read (.pudclk k)) ∧
      t.regs.ibrd = s.regs.ibrd ∧ t.regs.fbrd = s.regs.fbrd ∧ t.regs.lcrh = s.regs.lcrh ∧ t.regs.cr = s.regs.cr

/-! ### The UART controller: 42_uart_controller.md -/

/-- R105 (decision D35 of the spec): UART_CONSTRUCT of UART_BASE changes nothing and completes; any other base raises
UnsupportedPlatform. -/
def Obligations.UartConstructChecksTheBase : Prop :=
  ∀ (s : State) (base : Word),
    (base.toNat = s.cfg.uartBase → exec (.uartConstruct base) s = .next { s with upc := .idle }) ∧
    (base.toNat ≠ s.cfg.uartBase → exec (.uartConstruct base) s =
      .next { s with fault := some (.unsupportedPlatform base), upc := .idle })

/-- R106 to R113: INITIALIZE at an accepted baud rate performs the seven events in order and leaves CR, IBRD, FBRD,
LCRH programmed and `uart_state` Initialized, from either state; FBRD takes FBRD_FN(UART_CLK, baud), whatever that
function is; an empty queue stays empty and a non-empty one becomes a draw no longer than it was (log 10); nothing
else changes. UART_CLK = 48,000,000, FBRD_FN, the accepted range, the place of the LCRH read and that an Initialized
block may be initialized again are decisions D20, D21, D22, D23 and D27 of the spec. That T still holds the old LCRH
when the command has ended is the model's own choice (log 4): R33 says that T then holds no value. -/
def Obligations.InitializePerformsTheSequence : Prop :=
  ∀ (s : State) (baud : Word), baud.toNat ≠ 0 → baud.toNat < 2 ^ 28 →
    ∃ (q : List Byte) (d : Draws),
      q.length ≤ s.txq.length ∧ (s.txq = [] → d = s.draws) ∧
      exec (.uartInitialize baud) s =
        .next { s with
          regs := { s.regs with
            cr := 0x301
            ibrd := BitVec.ofNat 32 (48000000 / (16 * baud.toNat))
            fbrd := Config.fbrdFn 48000000 baud.toNat
            lcrh := s.regs.lcrh ||| 0x60 }
          uart := .initialized
          t := s.regs.lcrh
          txq := q
          draws := d
          trace := s.trace ++
            [.wr (s.cfg.addr (.reg .cr)) 0,
              .wr (s.cfg.addr (.reg .ibrd)) (BitVec.ofNat 32 (48000000 / (16 * baud.toNat))),
              .wr (s.cfg.addr (.reg .fbrd)) (Config.fbrdFn 48000000 baud.toNat),
              .rd (s.cfg.addr (.reg .lcrh)) s.regs.lcrh,
              .wr (s.cfg.addr (.reg .lcrh)) (s.regs.lcrh ||| 0x60),
              .wr (s.cfg.addr (.reg .cr)) 0xC5, .wr (s.cfg.addr (.reg .cr)) 0x301]
          upc := .idle }

/-- R107, R112: the first bus event of INITIALIZE writes the whole of CR as zero with no read of CR, and after its
last write `uart_state` is Initialized unconditionally: CR, IBRD and FBRD are not read back. -/
def Obligations.InitializeDisablesFirstAndReadsNothingBack : Prop :=
  ∀ (s t : State) (baud : Word), baudValid baud = true → exec (.uartInitialize baud) s = .next t →
    t.uart = .initialized ∧
    ∃ es, t.trace = s.trace ++ .wr (s.cfg.addr (.reg .cr)) 0 :: es ∧
      (s.cfg.WfMap → ∀ v, .rd (s.cfg.addr (.reg .cr)) v ∉ es ∧ .rd (s.cfg.addr (.reg .ibrd)) v ∉ es ∧
        .rd (s.cfg.addr (.reg .fbrd)) v ∉ es)

/-- R108 (decision D22 of the spec): a baud rate of 0, or of 2^28 or more, raises InvalidBaud before any write. -/
def Obligations.InvalidBaudFaults : Prop :=
  ∀ (s : State) (baud : Word), (baud.toNat = 0 ∨ 2 ^ 28 ≤ baud.toNat) →
    exec (.uartInitialize baud) s = .next { s with fault := some (.invalidBaud baud), upc := .idle }

/-- R11, R108: at an accepted baud rate the product and the quotient fit a word, the IBRD word is the quotient, and
for 115200 baud it is 26 with remainder 76,800 (UART_CLK is decision D20 of the spec). -/
def Obligations.DivisorFitsAWord : Prop :=
  (∀ baud : Word, baudValid baud = true → 16 * baud.toNat < 2 ^ 32 ∧
    (ibrdWord baud).toNat = 48000000 / (16 * baud.toNat) ∧ 48000000 % (16 * baud.toNat) < 16 * baud.toNat) ∧
  ibrdWord 115200 = 26 ∧ 48000000 % (16 * 115200) = 76800

/-- R110 (the place of the read is decision D23 of the spec): the line-control merge: every bit of LCRH that was 1
stays 1, bits 6 and 5 become 1, no bit is cleared and no other is set. -/
def Obligations.LineControlIsMerged : Prop :=
  ∀ (s t : State) (baud : Word), baudValid baud = true → exec (.uartInitialize baud) s = .next t →
    ∀ i : Nat, t.regs.lcrh.getLsbD i = (s.regs.lcrh.getLsbD i || decide (i = 5 ∨ i = 6))

/-- R115 to R117: TRANSMIT. Its encoding; the two faults in their order, with no bus event; else exactly one write of
zext_32(byte) to DR, and the byte joins the tail of the queue. Where the queue already holds FIFO_DEPTH bytes, a
"not full" answer means that the engine has moved bytes to the output by then (log 2, R37, R120). The two
faults are decisions D25 and D26 of the spec. -/
def Obligations.TransmitWritesTheByte : Prop :=
  (∀ (byte : Byte) (b : Word) (text : List Byte),
    decode ⟨commandWord 0x7 (byte.setWidth 32) b, text⟩ = .ok (.transmit byte)) ∧
  (∀ (a b : Word) (text : List Byte), a >>> 8 ≠ 0 → decode ⟨commandWord 0x7 a b, text⟩ = .error .mustBeZero) ∧
  ∀ (s : State) (byte : Byte),
    (s.UartUninit → exec (.transmit byte) s =
      .next { s with fault := some .uartNotInitialized, upc := .idle }) ∧
    (s.UartInit → s.fifoIsFull = true → exec (.transmit byte) s =
      .next { s with fault := some (.uartFifoOverflow byte), upc := .idle }) ∧
    (s.UartInit → s.fifoIsFull = false →
      ∃ t, exec (.transmit byte) s = .next t ∧
        t.txOut ++ t.txq = s.txOut ++ s.txq ++ [byte] ∧ t.txq.getLast? = some byte ∧
        (s.txq.length < s.cfg.fifoDepth → t.txq = s.txq ++ [byte]) ∧
        t = { s with
          txOut := t.txOut
          txq := t.txq
          trace := s.trace ++ [.wr (s.cfg.addr .dr) (byte.setWidth 32)]
          draws := s.draws.useFull
          upc := .idle })

/-- R118: TRANSMIT_TEXT, when the transmitter is Initialized and no draw of its bytes answers "full": one DR write per
byte in order, and the queue gains the bytes in order. A text of no bytes needs no premise (decision D34).
`NoOverflowFor` is NoOverflow (R44) of this command's draws. -/
def Obligations.TransmitTextWritesEveryByte : Prop :=
  (∀ s : State, exec (.transmitText []) s = .next { s with upc := .idle }) ∧
  ∀ (s : State) (text : List Byte), s.UartInit → s.NoOverflowFor text.length →
    ∃ t, exec (.transmitText text) s = .next t ∧
      t.txOut ++ t.txq = s.txOut ++ s.txq ++ text ∧
      (s.txq.length + text.length ≤ s.cfg.fifoDepth → t.txq = s.txq ++ text) ∧
      t = { s with
        txOut := t.txOut
        txq := t.txq
        trace := s.trace ++ text.map (fun y => .wr (s.cfg.addr .dr) (y.setWidth 32))
        draws := s.draws.afterFull text.length
        upc := .idle }

/-- R118, R130 (90 C13; decisions D25, D26, D30 of the spec): a fault of TRANSMIT_TEXT is taken at the byte that meets
it: the bytes before it have been written and stay in the trace and in the queue or the output, the bytes after it are
not written; UartNotInitialized can only be raised at the first byte. -/
def Obligations.TransmitTextStopsAtTheFaultingByte : Prop :=
  (∀ (s : State) (y : Byte) (ys : List Byte), s.UartUninit →
    exec (.transmitText (y :: ys)) s = .next { s with fault := some .uartNotInitialized, upc := .idle }) ∧
  ∀ (s : State) (before after : List Byte) (y : Byte), s.UartInit → s.NoOverflowFor before.length →
    { s with draws := s.draws.afterFull before.length }.fifoIsFull = true →
      ∃ t, exec (.transmitText (before ++ y :: after)) s = .next t ∧
        t.txOut ++ t.txq = s.txOut ++ s.txq ++ before ∧
        t = { s with
          fault := some (.uartFifoOverflow y)
          txOut := t.txOut
          txq := t.txq
          trace := s.trace ++ before.map (fun z => .wr (s.cfg.addr .dr) (z.setWidth 32))
          draws := s.draws.afterFull before.length
          upc := .idle }

/-- The frame of the UART commands, on every path: every GPIO register, `pull`, `halted`, A, B, `rdata` and the
configuration are untouched; IBRD, FBRD, LCRH, CR, T and `uart_state` change only by INITIALIZE, the output only by
TRANSMIT and TRANSMIT_TEXT, which leave the UART registers alone. That `rdata` and A and B keep their words is the
model's choice (logs 6 and 4). -/
def Obligations.UartCommandsFrame : Prop :=
  ∀ (i : Instr) (s t : State),
    ((∃ base, i = .uartConstruct base) ∨ (∃ baud, i = .uartInitialize baud) ∨ (∃ byte, i = .transmit byte) ∨
      ∃ text, i = .transmitText text) →
    exec i s = .next t →
      t.cfg = s.cfg ∧ t.halted = s.halted ∧ t.a = s.a ∧ t.b = s.b ∧ t.pull = s.pull ∧ t.dly = s.dly ∧
      t.rdata = s.rdata ∧ t.port = s.port ∧
      (∀ n, t.regs.read (.fsel n) = s.regs.read (.fsel n)) ∧
      (∀ k, t.regs.read (.pud k) = s.regs.read (.pud k) ∧ t.regs.read (.pudclk k) = s.regs.read (.pudclk k)) ∧
      ((∀ baud, i ≠ .uartInitialize baud) → t.regs = s.regs ∧ t.t = s.t ∧ t.uart = s.uart) ∧
      ((∀ byte, i ≠ .transmit byte) → (∀ text, i ≠ .transmitText text) → t.txOut = s.txOut) ∧
      ((∃ base, i = .uartConstruct base) → t.txq = s.txq ∧ t.draws = s.draws ∧ t.trace = s.trace)

/-! ### The system command: 43_system.md -/

/-- R123 (decision D32 of the spec): HALT sets `halted`, makes no event and leaves everything else as it was; the
ignored fields of its word may hold anything. -/
def Obligations.HaltSetsOnlyHalted : Prop :=
  (∀ s : State, exec .halt s = .next { s with halted := true, upc := .idle }) ∧
  ∀ (a b : Word) (text : List Byte), decode ⟨commandWord 0x9 a b, text⟩ = .ok .halt

/-! ### Rules about the whole machine -/

/-- R39: the trace is empty at the start of a run and only ever appended to. So is the output stream: R37, R120, whose
queue and engine are decision D26 of the spec, and logs 2 and 14. -/
def Obligations.TraceIsOnlyAppendedTo : Prop :=
  (∀ (c : Board) (image : RegFile), (State.launch c image).trace = []) ∧
  ∀ s t : State, step s = .next t → (∃ es, t.trace = s.trace ++ es) ∧ ∃ bytes, t.txOut = s.txOut ++ bytes

/-- R103, R121 (both derived in the spec), R90: a command that raises no fault appends exactly the reads, writes and
waits of its rule, neither more nor fewer. -/
def Obligations.TraceShapesOfCommands : Prop :=
  ∀ (i : Instr) (s t : State), s.NoFault → exec i s = .next t → t.NoFault →
    ∃ es, t.trace = s.trace ++ es ∧ traceShape es = commandShape i

/-- R57 (b): what a command appends to the trace does not depend on what the trace held, nor does anything else it
does: the trace of a command sequence is the concatenation of the traces of its commands. -/
def Obligations.TraceOfACommandStandsAlone : Prop :=
  ∀ (i : Instr) (s t : State) (earlier : List Event), exec i s = .next t →
    ∃ es, t.trace = s.trace ++ es ∧
      exec i { s with trace := earlier } = .next { t with trace := earlier ++ es }

/-- R33 (decision D5 of the spec): with other contents of A, B and T `exec` does the same to everything else, so no
command reads a value that an earlier command left there. `exec` starts after acceptance, where A and B hold the
command's own operand fields (R85 (b)); that they influence nothing even there is the model's choice: a meaning takes
its operands from the decoded command (log 7). That A, B and T hold a word after a command is log 4. -/
def Obligations.WorkingRegistersInfluenceNothing : Prop :=
  ∀ (i : Instr) (s t : State) (a b w : Word), exec i s = .next t →
    ∃ u, exec i { s with a := a, b := b, t := w } = .next u ∧ { u with a := t.a, b := t.b, t := t.t } = t

/-- R30 (decisions D27, D28 of the spec): `uart_state` becomes Initialized only by an INITIALIZE that completes, and
Uninitialized only by a raw write to IBRD, FBRD, LCRH or CR; no other command changes it. -/
def Obligations.OnlyTheseWriteUartState : Prop :=
  ∀ (i : Instr) (s t : State), exec i s = .next t → t.uart ≠ s.uart →
    (t.uart = .initialized ∧ ∃ baud, i = .uartInitialize baud ∧ baudValid baud = true) ∨
    (t.uart = .uninitialized ∧ ∃ r ∈ [Reg.ibrd, .fbrd, .lcrh, .cr], ∃ v, i = .regWrite (s.cfg.addr (.reg r)) v)

/-- R36, R15 (decision D19 of the spec): a pull latch changes only by SET_PULL_UP_DOWN of that pin or by a raw write
to a register of its chain; a function-select register changes only by SET_FUNCTION of one of its pins or by a raw
write to it. -/
def Obligations.OnlyTheseWritePinState : Prop :=
  (∀ (i : Instr) (s t : State) (p : Fin 54), exec i s = .next t → t.pull[p] ≠ s.pull[p] →
    (∃ pin code, i = .setPullUpDown pin code ∧ pin.toNat = p.val) ∨
    ∃ (k : Fin 2) (v : Word), k.val = p.val / 32 ∧
      (i = .regWrite (s.cfg.addr (.reg (.pud k))) v ∨ i = .regWrite (s.cfg.addr (.reg (.pudclk k))) v)) ∧
  ∀ (i : Instr) (s t : State) (n : Fin 6), exec i s = .next t → t.regs.fsel[n] ≠ s.regs.fsel[n] →
    (∃ pin code, i = .setFunction pin code ∧ pin.toNat / 10 = n.val) ∨
    ∃ v, i = .regWrite (s.cfg.addr (.reg (.fsel n))) v

/-- R40: the configuration is fixed before the first command: no step changes it; that it is a field of the state is
the model's choice (log 1). And no command but REG_READ changes `rdata`: the spec says that REG_READ alone drives it,
and that it still holds its word after another command is the model's choice (log 6). -/
def Obligations.ConfigurationIsFixed : Prop :=
  (∀ s t : State, step s = .next t → t.cfg = s.cfg) ∧
  ∀ (i : Instr) (s t : State), exec i s = .next t → (∀ addr, i ≠ .regRead addr) → t.rdata = s.rdata

/-- R34 (decision D6 of the spec): commands run to completion: from an idle state every step ends idle. -/
def Obligations.StepsKeepIdle : Prop :=
  ∀ s t : State, s.Idle → step s = .next t → t.Idle

/-- R114, R89, R151 (decision D28 of the spec): every step keeps the transmitter programmed while it is Initialized:
CR holds the enable pattern, LCRH the merged bits, IBRD and FBRD the words of one accepted baud rate. -/
def Obligations.StepsKeepTheTransmitterProgrammed : Prop :=
  ∀ s t : State, s.Programmed → step s = .next t → t.Programmed

/-- At the start of a run, and so at reset, the transmitter is Uninitialized, so `Programmed` holds, and `txq` is
empty, so it is bounded and the bytes are in order; nothing is traced, so every event is possible. -/
def Obligations.InvariantsHoldAtLaunch : Prop :=
  (∀ (c : Board) (image : RegFile),
    (State.launch c image).Programmed ∧ (State.launch c image).QueueBounded ∧ (State.launch c image).BytesInOrder ∧
      (State.launch c image).TracePossible ∧ (State.launch c image).Idle) ∧
  State.reset.Programmed ∧ State.reset.QueueBounded ∧ State.reset.BytesInOrder ∧ State.reset.TracePossible ∧
    State.reset.Idle

/-- R37 (decision D26 of the spec; log 2): every step keeps `txq` within FIFO_DEPTH bytes, whatever FIFO_DEPTH is. -/
def Obligations.StepsKeepTheQueueBounded : Prop :=
  ∀ s t : State, s.QueueBounded → step s = .next t → t.QueueBounded

/-- R120 (derived in the spec from R115 and R118): provided `txq` is empty at every write of CR, every step keeps
`tx_out` followed by `txq` equal to the bytes submitted since reset, in order. -/
def Obligations.StepsKeepTheBytesInOrder : Prop :=
  ∀ s t : State, s.BytesInOrder →
    (∀ c rest i, s.port = c :: rest → decode c = .ok i → writesControl s.cfg i = true → s.TxEmpty) →
    step s = .next t → t.BytesInOrder

/-- R46, R47, R100: every step keeps the trace possible: each of its bus events is at one of the fifteen addresses and
each of its waits has 150 iterations (decision D18 of the spec). -/
def Obligations.StepsKeepTheTracePossible : Prop :=
  ∀ s t : State, s.TracePossible → step s = .next t → t.TracePossible

/-- R120, R124 (decision D26 of the spec; logs 9, 14) under the named fairness assumption: a run that starts with no
command waiting, the transmitter Initialized and IBRD not 0, drains: at some moment the queue is empty and the output
has gained all its bytes in order, with nothing traced on the way. -/
def Obligations.FairRunsDrainTheQueue : Prop :=
  ∀ run : Nat → State, IsRun run → WeaklyFair run → (run 0).port = [] → (run 0).UartInit →
    (run 0).regs.ibrd ≠ 0 →
      ∃ k, (run k).txq = [] ∧ (run k).txOut = (run 0).txOut ++ (run 0).txq ∧ (run k).trace = (run 0).trace

/-- R44, R117 (decision D26 of the spec; logs 2, 11, 13): the premise NoOverflow, that every FIFO-full draw of the run
answers "not full", says of a run that starts without the fault exactly that no state of it holds UartFifoOverflow. -/
def Obligations.NoOverflowMeansNoOverflowFault : Prop :=
  ∀ s : State, (∀ y, s.fault ≠ some (.uartFifoOverflow y)) →
    (s.NoOverflow ↔ ∀ t, Reaches s t → ∀ y, t.fault ≠ some (.uartFifoOverflow y))
end

