-- ==== Sys2Proof/Laws/Decode.lean ====
section
/-! SUPPORT. The fields of a command word that was put together from its fields. -/

namespace Sys2Proof

@[simp] theorem commandWord_op (op : BitVec 4) (a b : Word) :
    (commandWord op a b).extractLsb' 64 4 = op := by
  ext i h
  simp only [commandWord, BitVec.getElem_extractLsb', BitVec.getLsbD_append]
  grind

@[simp] theorem commandWord_a (op : BitVec 4) (a b : Word) :
    (commandWord op a b).extractLsb' 32 32 = a := by
  ext i h
  simp only [commandWord, BitVec.getElem_extractLsb', BitVec.getLsbD_append]
  grind

@[simp] theorem commandWord_b (op : BitVec 4) (a b : Word) :
    (commandWord op a b).extractLsb' 0 32 = b := by
  ext i h
  simp only [commandWord, BitVec.getElem_extractLsb', BitVec.getLsbD_append]
  grind

@[simp] theorem encode_op (i : Instr) : (encode i).op = i.opNumber := commandWord_op _ _ _

@[simp] theorem encode_a (i : Instr) : (encode i).a = i.fieldA := commandWord_a _ _ _

@[simp] theorem encode_b (i : Instr) : (encode i).b = i.fieldB := commandWord_b _ _ _

@[simp] theorem encode_text (i : Instr) : (encode i).text = i.textBytes := rfl

end Sys2Proof
end

