-- ==== Sys2Proof/Laws/State.lean ====
section
/-! SUPPORT. One lemma per field per update of the state, true by rfl, so that no later proof unfolds a record update. -/

namespace Sys2Proof.Machine

variable (s : State)

@[simp] theorem State.record_cfg (e : Event) : (s.record e).cfg = s.cfg := rfl
@[simp] theorem State.record_regs (e : Event) : (s.record e).regs = s.regs := rfl
@[simp] theorem State.record_uart (e : Event) : (s.record e).uart = s.uart := rfl
@[simp] theorem State.record_halted (e : Event) : (s.record e).halted = s.halted := rfl
@[simp] theorem State.record_fault (e : Event) : (s.record e).fault = s.fault := rfl
@[simp] theorem State.record_a (e : Event) : (s.record e).a = s.a := rfl
@[simp] theorem State.record_b (e : Event) : (s.record e).b = s.b := rfl
@[simp] theorem State.record_t (e : Event) : (s.record e).t = s.t := rfl
@[simp] theorem State.record_upc (e : Event) : (s.record e).upc = s.upc := rfl
@[simp] theorem State.record_pull (e : Event) : (s.record e).pull = s.pull := rfl
@[simp] theorem State.record_txq (e : Event) : (s.record e).txq = s.txq := rfl
@[simp] theorem State.record_txOut (e : Event) : (s.record e).txOut = s.txOut := rfl
@[simp] theorem State.record_dly (e : Event) : (s.record e).dly = s.dly := rfl
@[simp] theorem State.record_trace (e : Event) : (s.record e).trace = s.trace ++ [e] := rfl
@[simp] theorem State.record_rdata (e : Event) : (s.record e).rdata = s.rdata := rfl
@[simp] theorem State.record_port (e : Event) : (s.record e).port = s.port := rfl
@[simp] theorem State.record_draws (e : Event) : (s.record e).draws = s.draws := rfl

@[simp] theorem State.advance_cfg : (s.advance).cfg = s.cfg := rfl
@[simp] theorem State.advance_regs : (s.advance).regs = s.regs := rfl
@[simp] theorem State.advance_uart : (s.advance).uart = s.uart := rfl
@[simp] theorem State.advance_halted : (s.advance).halted = s.halted := rfl
@[simp] theorem State.advance_fault : (s.advance).fault = s.fault := rfl
@[simp] theorem State.advance_a : (s.advance).a = s.a := rfl
@[simp] theorem State.advance_b : (s.advance).b = s.b := rfl
@[simp] theorem State.advance_t : (s.advance).t = s.t := rfl
@[simp] theorem State.advance_upc : (s.advance).upc = s.upc.next := rfl
@[simp] theorem State.advance_pull : (s.advance).pull = s.pull := rfl
@[simp] theorem State.advance_txq : (s.advance).txq = s.txq := rfl
@[simp] theorem State.advance_txOut : (s.advance).txOut = s.txOut := rfl
@[simp] theorem State.advance_dly : (s.advance).dly = s.dly := rfl
@[simp] theorem State.advance_trace : (s.advance).trace = s.trace := rfl
@[simp] theorem State.advance_rdata : (s.advance).rdata = s.rdata := rfl
@[simp] theorem State.advance_port : (s.advance).port = s.port := rfl
@[simp] theorem State.advance_draws : (s.advance).draws = s.draws := rfl

@[simp] theorem State.complete_cfg : (s.complete).cfg = s.cfg := rfl
@[simp] theorem State.complete_regs : (s.complete).regs = s.regs := rfl
@[simp] theorem State.complete_uart : (s.complete).uart = s.uart := rfl
@[simp] theorem State.complete_halted : (s.complete).halted = s.halted := rfl
@[simp] theorem State.complete_fault : (s.complete).fault = s.fault := rfl
@[simp] theorem State.complete_a : (s.complete).a = s.a := rfl
@[simp] theorem State.complete_b : (s.complete).b = s.b := rfl
@[simp] theorem State.complete_t : (s.complete).t = s.t := rfl
@[simp] theorem State.complete_upc : (s.complete).upc = .idle := rfl
@[simp] theorem State.complete_pull : (s.complete).pull = s.pull := rfl
@[simp] theorem State.complete_txq : (s.complete).txq = s.txq := rfl
@[simp] theorem State.complete_txOut : (s.complete).txOut = s.txOut := rfl
@[simp] theorem State.complete_dly : (s.complete).dly = s.dly := rfl
@[simp] theorem State.complete_trace : (s.complete).trace = s.trace := rfl
@[simp] theorem State.complete_rdata : (s.complete).rdata = s.rdata := rfl
@[simp] theorem State.complete_port : (s.complete).port = s.port := rfl
@[simp] theorem State.complete_draws : (s.complete).draws = s.draws := rfl

@[simp] theorem State.raise_cfg (f : Fault) : (s.raise f).cfg = s.cfg := rfl
@[simp] theorem State.raise_regs (f : Fault) : (s.raise f).regs = s.regs := rfl
@[simp] theorem State.raise_uart (f : Fault) : (s.raise f).uart = s.uart := rfl
@[simp] theorem State.raise_halted (f : Fault) : (s.raise f).halted = s.halted := rfl
@[simp] theorem State.raise_fault (f : Fault) : (s.raise f).fault = some f := rfl
@[simp] theorem State.raise_a (f : Fault) : (s.raise f).a = s.a := rfl
@[simp] theorem State.raise_b (f : Fault) : (s.raise f).b = s.b := rfl
@[simp] theorem State.raise_t (f : Fault) : (s.raise f).t = s.t := rfl
@[simp] theorem State.raise_upc (f : Fault) : (s.raise f).upc = .idle := rfl
@[simp] theorem State.raise_pull (f : Fault) : (s.raise f).pull = s.pull := rfl
@[simp] theorem State.raise_txq (f : Fault) : (s.raise f).txq = s.txq := rfl
@[simp] theorem State.raise_txOut (f : Fault) : (s.raise f).txOut = s.txOut := rfl
@[simp] theorem State.raise_dly (f : Fault) : (s.raise f).dly = s.dly := rfl
@[simp] theorem State.raise_trace (f : Fault) : (s.raise f).trace = s.trace := rfl
@[simp] theorem State.raise_rdata (f : Fault) : (s.raise f).rdata = s.rdata := rfl
@[simp] theorem State.raise_port (f : Fault) : (s.raise f).port = s.port := rfl
@[simp] theorem State.raise_draws (f : Fault) : (s.raise f).draws = s.draws := rfl

@[simp] theorem State.setUart_cfg (u : UartState) : (s.setUart u).cfg = s.cfg := rfl
@[simp] theorem State.setUart_regs (u : UartState) : (s.setUart u).regs = s.regs := rfl
@[simp] theorem State.setUart_uart (u : UartState) : (s.setUart u).uart = u := rfl
@[simp] theorem State.setUart_halted (u : UartState) : (s.setUart u).halted = s.halted := rfl
@[simp] theorem State.setUart_fault (u : UartState) : (s.setUart u).fault = s.fault := rfl
@[simp] theorem State.setUart_a (u : UartState) : (s.setUart u).a = s.a := rfl
@[simp] theorem State.setUart_b (u : UartState) : (s.setUart u).b = s.b := rfl
@[simp] theorem State.setUart_t (u : UartState) : (s.setUart u).t = s.t := rfl
@[simp] theorem State.setUart_upc (u : UartState) : (s.setUart u).upc = s.upc := rfl
@[simp] theorem State.setUart_pull (u : UartState) : (s.setUart u).pull = s.pull := rfl
@[simp] theorem State.setUart_txq (u : UartState) : (s.setUart u).txq = s.txq := rfl
@[simp] theorem State.setUart_txOut (u : UartState) : (s.setUart u).txOut = s.txOut := rfl
@[simp] theorem State.setUart_dly (u : UartState) : (s.setUart u).dly = s.dly := rfl
@[simp] theorem State.setUart_trace (u : UartState) : (s.setUart u).trace = s.trace := rfl
@[simp] theorem State.setUart_rdata (u : UartState) : (s.setUart u).rdata = s.rdata := rfl
@[simp] theorem State.setUart_port (u : UartState) : (s.setUart u).port = s.port := rfl
@[simp] theorem State.setUart_draws (u : UartState) : (s.setUart u).draws = s.draws := rfl

@[simp] theorem State.latchPull_cfg (p : Nat) (v : PullState) : (s.latchPull p v).cfg = s.cfg := rfl
@[simp] theorem State.latchPull_regs (p : Nat) (v : PullState) : (s.latchPull p v).regs = s.regs := rfl
@[simp] theorem State.latchPull_uart (p : Nat) (v : PullState) : (s.latchPull p v).uart = s.uart := rfl
@[simp] theorem State.latchPull_halted (p : Nat) (v : PullState) : (s.latchPull p v).halted = s.halted := rfl
@[simp] theorem State.latchPull_fault (p : Nat) (v : PullState) : (s.latchPull p v).fault = s.fault := rfl
@[simp] theorem State.latchPull_a (p : Nat) (v : PullState) : (s.latchPull p v).a = s.a := rfl
@[simp] theorem State.latchPull_b (p : Nat) (v : PullState) : (s.latchPull p v).b = s.b := rfl
@[simp] theorem State.latchPull_t (p : Nat) (v : PullState) : (s.latchPull p v).t = s.t := rfl
@[simp] theorem State.latchPull_upc (p : Nat) (v : PullState) : (s.latchPull p v).upc = s.upc := rfl
@[simp] theorem State.latchPull_pull (p : Nat) (v : PullState) : (s.latchPull p v).pull = s.pull.setIfInBounds p v := rfl
@[simp] theorem State.latchPull_txq (p : Nat) (v : PullState) : (s.latchPull p v).txq = s.txq := rfl
@[simp] theorem State.latchPull_txOut (p : Nat) (v : PullState) : (s.latchPull p v).txOut = s.txOut := rfl
@[simp] theorem State.latchPull_dly (p : Nat) (v : PullState) : (s.latchPull p v).dly = s.dly := rfl
@[simp] theorem State.latchPull_trace (p : Nat) (v : PullState) : (s.latchPull p v).trace = s.trace := rfl
@[simp] theorem State.latchPull_rdata (p : Nat) (v : PullState) : (s.latchPull p v).rdata = s.rdata := rfl
@[simp] theorem State.latchPull_port (p : Nat) (v : PullState) : (s.latchPull p v).port = s.port := rfl
@[simp] theorem State.latchPull_draws (p : Nat) (v : PullState) : (s.latchPull p v).draws = s.draws := rfl

@[simp] theorem State.disturbChain_cfg (k : Fin 2) : (s.disturbChain k).cfg = s.cfg := rfl
@[simp] theorem State.disturbChain_regs (k : Fin 2) : (s.disturbChain k).regs = s.regs := rfl
@[simp] theorem State.disturbChain_uart (k : Fin 2) : (s.disturbChain k).uart = s.uart := rfl
@[simp] theorem State.disturbChain_halted (k : Fin 2) : (s.disturbChain k).halted = s.halted := rfl
@[simp] theorem State.disturbChain_fault (k : Fin 2) : (s.disturbChain k).fault = s.fault := rfl
@[simp] theorem State.disturbChain_a (k : Fin 2) : (s.disturbChain k).a = s.a := rfl
@[simp] theorem State.disturbChain_b (k : Fin 2) : (s.disturbChain k).b = s.b := rfl
@[simp] theorem State.disturbChain_t (k : Fin 2) : (s.disturbChain k).t = s.t := rfl
@[simp] theorem State.disturbChain_upc (k : Fin 2) : (s.disturbChain k).upc = s.upc := rfl
@[simp] theorem State.disturbChain_pull (k : Fin 2) : (s.disturbChain k).pull = s.pull.mapIdx (fun p v => if p / 32 = k.val then .unspecified else v) := rfl
@[simp] theorem State.disturbChain_txq (k : Fin 2) : (s.disturbChain k).txq = s.txq := rfl
@[simp] theorem State.disturbChain_txOut (k : Fin 2) : (s.disturbChain k).txOut = s.txOut := rfl
@[simp] theorem State.disturbChain_dly (k : Fin 2) : (s.disturbChain k).dly = s.dly := rfl
@[simp] theorem State.disturbChain_trace (k : Fin 2) : (s.disturbChain k).trace = s.trace := rfl
@[simp] theorem State.disturbChain_rdata (k : Fin 2) : (s.disturbChain k).rdata = s.rdata := rfl
@[simp] theorem State.disturbChain_port (k : Fin 2) : (s.disturbChain k).port = s.port := rfl
@[simp] theorem State.disturbChain_draws (k : Fin 2) : (s.disturbChain k).draws = s.draws := rfl

@[simp] theorem State.moveBytes_cfg (n : Nat) : (s.moveBytes n).cfg = s.cfg := rfl
@[simp] theorem State.moveBytes_regs (n : Nat) : (s.moveBytes n).regs = s.regs := rfl
@[simp] theorem State.moveBytes_uart (n : Nat) : (s.moveBytes n).uart = s.uart := rfl
@[simp] theorem State.moveBytes_halted (n : Nat) : (s.moveBytes n).halted = s.halted := rfl
@[simp] theorem State.moveBytes_fault (n : Nat) : (s.moveBytes n).fault = s.fault := rfl
@[simp] theorem State.moveBytes_a (n : Nat) : (s.moveBytes n).a = s.a := rfl
@[simp] theorem State.moveBytes_b (n : Nat) : (s.moveBytes n).b = s.b := rfl
@[simp] theorem State.moveBytes_t (n : Nat) : (s.moveBytes n).t = s.t := rfl
@[simp] theorem State.moveBytes_upc (n : Nat) : (s.moveBytes n).upc = s.upc := rfl
@[simp] theorem State.moveBytes_pull (n : Nat) : (s.moveBytes n).pull = s.pull := rfl
@[simp] theorem State.moveBytes_txq (n : Nat) : (s.moveBytes n).txq = s.txq.drop n := rfl
@[simp] theorem State.moveBytes_txOut (n : Nat) : (s.moveBytes n).txOut = s.txOut ++ s.txq.take n := rfl
@[simp] theorem State.moveBytes_dly (n : Nat) : (s.moveBytes n).dly = s.dly := rfl
@[simp] theorem State.moveBytes_trace (n : Nat) : (s.moveBytes n).trace = s.trace := rfl
@[simp] theorem State.moveBytes_rdata (n : Nat) : (s.moveBytes n).rdata = s.rdata := rfl
@[simp] theorem State.moveBytes_port (n : Nat) : (s.moveBytes n).port = s.port := rfl
@[simp] theorem State.moveBytes_draws (n : Nat) : (s.moveBytes n).draws = s.draws := rfl

@[simp] theorem State.load_cfg (c : PortCommand) : (s.load c).cfg = s.cfg := rfl
@[simp] theorem State.load_regs (c : PortCommand) : (s.load c).regs = s.regs := rfl
@[simp] theorem State.load_uart (c : PortCommand) : (s.load c).uart = s.uart := rfl
@[simp] theorem State.load_halted (c : PortCommand) : (s.load c).halted = s.halted := rfl
@[simp] theorem State.load_fault (c : PortCommand) : (s.load c).fault = s.fault := rfl
@[simp] theorem State.load_a (c : PortCommand) : (s.load c).a = c.a := rfl
@[simp] theorem State.load_b (c : PortCommand) : (s.load c).b = c.b := rfl
@[simp] theorem State.load_t (c : PortCommand) : (s.load c).t = s.t := rfl
@[simp] theorem State.load_upc (c : PortCommand) : (s.load c).upc = .busy c.op 0 := rfl
@[simp] theorem State.load_pull (c : PortCommand) : (s.load c).pull = s.pull := rfl
@[simp] theorem State.load_txq (c : PortCommand) : (s.load c).txq = s.txq := rfl
@[simp] theorem State.load_txOut (c : PortCommand) : (s.load c).txOut = s.txOut := rfl
@[simp] theorem State.load_dly (c : PortCommand) : (s.load c).dly = s.dly := rfl
@[simp] theorem State.load_trace (c : PortCommand) : (s.load c).trace = s.trace := rfl
@[simp] theorem State.load_rdata (c : PortCommand) : (s.load c).rdata = s.rdata := rfl
@[simp] theorem State.load_port (c : PortCommand) : (s.load c).port = s.port := rfl
@[simp] theorem State.load_draws (c : PortCommand) : (s.load c).draws = s.draws := rfl

@[simp] theorem State.present_cfg (c : PortCommand) : (s.present c).cfg = s.cfg := rfl
@[simp] theorem State.present_regs (c : PortCommand) : (s.present c).regs = s.regs := rfl
@[simp] theorem State.present_uart (c : PortCommand) : (s.present c).uart = s.uart := rfl
@[simp] theorem State.present_halted (c : PortCommand) : (s.present c).halted = s.halted := rfl
@[simp] theorem State.present_fault (c : PortCommand) : (s.present c).fault = s.fault := rfl
@[simp] theorem State.present_a (c : PortCommand) : (s.present c).a = s.a := rfl
@[simp] theorem State.present_b (c : PortCommand) : (s.present c).b = s.b := rfl
@[simp] theorem State.present_t (c : PortCommand) : (s.present c).t = s.t := rfl
@[simp] theorem State.present_upc (c : PortCommand) : (s.present c).upc = s.upc := rfl
@[simp] theorem State.present_pull (c : PortCommand) : (s.present c).pull = s.pull := rfl
@[simp] theorem State.present_txq (c : PortCommand) : (s.present c).txq = s.txq := rfl
@[simp] theorem State.present_txOut (c : PortCommand) : (s.present c).txOut = s.txOut := rfl
@[simp] theorem State.present_dly (c : PortCommand) : (s.present c).dly = s.dly := rfl
@[simp] theorem State.present_trace (c : PortCommand) : (s.present c).trace = s.trace := rfl
@[simp] theorem State.present_rdata (c : PortCommand) : (s.present c).rdata = s.rdata := rfl
@[simp] theorem State.present_port (c : PortCommand) : (s.present c).port = c :: s.port := rfl
@[simp] theorem State.present_draws (c : PortCommand) : (s.present c).draws = s.draws := rfl

@[simp] theorem State.memWrite_reg_cfg (r : Reg) (v : Word) : (s.memWrite (.reg r) v).cfg = s.cfg := rfl
@[simp] theorem State.memWrite_reg_regs (r : Reg) (v : Word) : (s.memWrite (.reg r) v).regs = s.regs.write r v := rfl
@[simp] theorem State.memWrite_reg_uart (r : Reg) (v : Word) : (s.memWrite (.reg r) v).uart = s.uart := rfl
@[simp] theorem State.memWrite_reg_halted (r : Reg) (v : Word) : (s.memWrite (.reg r) v).halted = s.halted := rfl
@[simp] theorem State.memWrite_reg_fault (r : Reg) (v : Word) : (s.memWrite (.reg r) v).fault = s.fault := rfl
@[simp] theorem State.memWrite_reg_a (r : Reg) (v : Word) : (s.memWrite (.reg r) v).a = s.a := rfl
@[simp] theorem State.memWrite_reg_b (r : Reg) (v : Word) : (s.memWrite (.reg r) v).b = s.b := rfl
@[simp] theorem State.memWrite_reg_t (r : Reg) (v : Word) : (s.memWrite (.reg r) v).t = s.t := rfl
@[simp] theorem State.memWrite_reg_upc (r : Reg) (v : Word) : (s.memWrite (.reg r) v).upc = s.upc.next := rfl
@[simp] theorem State.memWrite_reg_pull (r : Reg) (v : Word) : (s.memWrite (.reg r) v).pull = s.pull := rfl
@[simp] theorem State.memWrite_reg_txq (r : Reg) (v : Word) : (s.memWrite (.reg r) v).txq = s.txq := rfl
@[simp] theorem State.memWrite_reg_txOut (r : Reg) (v : Word) : (s.memWrite (.reg r) v).txOut = s.txOut := rfl
@[simp] theorem State.memWrite_reg_dly (r : Reg) (v : Word) : (s.memWrite (.reg r) v).dly = s.dly := rfl
@[simp] theorem State.memWrite_reg_trace (r : Reg) (v : Word) : (s.memWrite (.reg r) v).trace = s.trace ++ [.wr (s.cfg.addr (.reg r)) v] := rfl
@[simp] theorem State.memWrite_reg_rdata (r : Reg) (v : Word) : (s.memWrite (.reg r) v).rdata = s.rdata := rfl
@[simp] theorem State.memWrite_reg_port (r : Reg) (v : Word) : (s.memWrite (.reg r) v).port = s.port := rfl
@[simp] theorem State.memWrite_reg_draws (r : Reg) (v : Word) : (s.memWrite (.reg r) v).draws = s.draws := rfl

@[simp] theorem State.memWrite_dr_cfg (v : Word) : (s.memWrite .dr v).cfg = s.cfg := rfl
@[simp] theorem State.memWrite_dr_regs (v : Word) : (s.memWrite .dr v).regs = s.regs := rfl
@[simp] theorem State.memWrite_dr_uart (v : Word) : (s.memWrite .dr v).uart = s.uart := rfl
@[simp] theorem State.memWrite_dr_halted (v : Word) : (s.memWrite .dr v).halted = s.halted := rfl
@[simp] theorem State.memWrite_dr_fault (v : Word) : (s.memWrite .dr v).fault = s.fault := rfl
@[simp] theorem State.memWrite_dr_a (v : Word) : (s.memWrite .dr v).a = s.a := rfl
@[simp] theorem State.memWrite_dr_b (v : Word) : (s.memWrite .dr v).b = s.b := rfl
@[simp] theorem State.memWrite_dr_t (v : Word) : (s.memWrite .dr v).t = s.t := rfl
@[simp] theorem State.memWrite_dr_upc (v : Word) : (s.memWrite .dr v).upc = s.upc.next := rfl
@[simp] theorem State.memWrite_dr_pull (v : Word) : (s.memWrite .dr v).pull = s.pull := rfl
@[simp] theorem State.memWrite_dr_txq (v : Word) : (s.memWrite .dr v).txq = s.txq ++ [drByte v] := rfl
@[simp] theorem State.memWrite_dr_txOut (v : Word) : (s.memWrite .dr v).txOut = s.txOut := rfl
@[simp] theorem State.memWrite_dr_dly (v : Word) : (s.memWrite .dr v).dly = s.dly := rfl
@[simp] theorem State.memWrite_dr_trace (v : Word) : (s.memWrite .dr v).trace = s.trace ++ [.wr (s.cfg.addr .dr) v] := rfl
@[simp] theorem State.memWrite_dr_rdata (v : Word) : (s.memWrite .dr v).rdata = s.rdata := rfl
@[simp] theorem State.memWrite_dr_port (v : Word) : (s.memWrite .dr v).port = s.port := rfl
@[simp] theorem State.memWrite_dr_draws (v : Word) : (s.memWrite .dr v).draws = s.draws := rfl

@[simp] theorem State.readIntoT_reg_cfg (r : Reg) : (s.readIntoT (.reg r)).cfg = s.cfg := rfl
@[simp] theorem State.readIntoT_reg_regs (r : Reg) : (s.readIntoT (.reg r)).regs = s.regs := rfl
@[simp] theorem State.readIntoT_reg_uart (r : Reg) : (s.readIntoT (.reg r)).uart = s.uart := rfl
@[simp] theorem State.readIntoT_reg_halted (r : Reg) : (s.readIntoT (.reg r)).halted = s.halted := rfl
@[simp] theorem State.readIntoT_reg_fault (r : Reg) : (s.readIntoT (.reg r)).fault = s.fault := rfl
@[simp] theorem State.readIntoT_reg_a (r : Reg) : (s.readIntoT (.reg r)).a = s.a := rfl
@[simp] theorem State.readIntoT_reg_b (r : Reg) : (s.readIntoT (.reg r)).b = s.b := rfl
@[simp] theorem State.readIntoT_reg_t (r : Reg) : (s.readIntoT (.reg r)).t = s.regs.read r := rfl
@[simp] theorem State.readIntoT_reg_upc (r : Reg) : (s.readIntoT (.reg r)).upc = s.upc.next := rfl
@[simp] theorem State.readIntoT_reg_pull (r : Reg) : (s.readIntoT (.reg r)).pull = s.pull := rfl
@[simp] theorem State.readIntoT_reg_txq (r : Reg) : (s.readIntoT (.reg r)).txq = s.txq := rfl
@[simp] theorem State.readIntoT_reg_txOut (r : Reg) : (s.readIntoT (.reg r)).txOut = s.txOut := rfl
@[simp] theorem State.readIntoT_reg_dly (r : Reg) : (s.readIntoT (.reg r)).dly = s.dly := rfl
@[simp] theorem State.readIntoT_reg_trace (r : Reg) : (s.readIntoT (.reg r)).trace = s.trace ++ [.rd (s.cfg.addr (.reg r)) (s.regs.read r)] := rfl
@[simp] theorem State.readIntoT_reg_rdata (r : Reg) : (s.readIntoT (.reg r)).rdata = s.rdata := rfl
@[simp] theorem State.readIntoT_reg_port (r : Reg) : (s.readIntoT (.reg r)).port = s.port := rfl
@[simp] theorem State.readIntoT_reg_draws (r : Reg) : (s.readIntoT (.reg r)).draws = s.draws := rfl

@[simp] theorem State.setT_cfg (v : Word) : (s.setT v).cfg = s.cfg := rfl
@[simp] theorem State.setT_regs (v : Word) : (s.setT v).regs = s.regs := rfl
@[simp] theorem State.setT_uart (v : Word) : (s.setT v).uart = s.uart := rfl
@[simp] theorem State.setT_halted (v : Word) : (s.setT v).halted = s.halted := rfl
@[simp] theorem State.setT_fault (v : Word) : (s.setT v).fault = s.fault := rfl
@[simp] theorem State.setT_a (v : Word) : (s.setT v).a = s.a := rfl
@[simp] theorem State.setT_b (v : Word) : (s.setT v).b = s.b := rfl
@[simp] theorem State.setT_t (v : Word) : (s.setT v).t = v := rfl
@[simp] theorem State.setT_upc (v : Word) : (s.setT v).upc = s.upc := rfl
@[simp] theorem State.setT_pull (v : Word) : (s.setT v).pull = s.pull := rfl
@[simp] theorem State.setT_txq (v : Word) : (s.setT v).txq = s.txq := rfl
@[simp] theorem State.setT_txOut (v : Word) : (s.setT v).txOut = s.txOut := rfl
@[simp] theorem State.setT_dly (v : Word) : (s.setT v).dly = s.dly := rfl
@[simp] theorem State.setT_trace (v : Word) : (s.setT v).trace = s.trace := rfl
@[simp] theorem State.setT_rdata (v : Word) : (s.setT v).rdata = s.rdata := rfl
@[simp] theorem State.setT_port (v : Word) : (s.setT v).port = s.port := rfl
@[simp] theorem State.setT_draws (v : Word) : (s.setT v).draws = s.draws := rfl

@[simp] theorem State.respond_cfg (v : Word) : (s.respond v).cfg = s.cfg := rfl
@[simp] theorem State.respond_regs (v : Word) : (s.respond v).regs = s.regs := rfl
@[simp] theorem State.respond_uart (v : Word) : (s.respond v).uart = s.uart := rfl
@[simp] theorem State.respond_halted (v : Word) : (s.respond v).halted = s.halted := rfl
@[simp] theorem State.respond_fault (v : Word) : (s.respond v).fault = s.fault := rfl
@[simp] theorem State.respond_a (v : Word) : (s.respond v).a = s.a := rfl
@[simp] theorem State.respond_b (v : Word) : (s.respond v).b = s.b := rfl
@[simp] theorem State.respond_t (v : Word) : (s.respond v).t = s.t := rfl
@[simp] theorem State.respond_upc (v : Word) : (s.respond v).upc = s.upc := rfl
@[simp] theorem State.respond_pull (v : Word) : (s.respond v).pull = s.pull := rfl
@[simp] theorem State.respond_txq (v : Word) : (s.respond v).txq = s.txq := rfl
@[simp] theorem State.respond_txOut (v : Word) : (s.respond v).txOut = s.txOut := rfl
@[simp] theorem State.respond_dly (v : Word) : (s.respond v).dly = s.dly := rfl
@[simp] theorem State.respond_trace (v : Word) : (s.respond v).trace = s.trace := rfl
@[simp] theorem State.respond_rdata (v : Word) : (s.respond v).rdata = v := rfl
@[simp] theorem State.respond_port (v : Word) : (s.respond v).port = s.port := rfl
@[simp] theorem State.respond_draws (v : Word) : (s.respond v).draws = s.draws := rfl

@[simp] theorem Draws.useFull_fifoFull (d : Draws) : d.useFull.fifoFull = d.fifoFull.use := rfl
@[simp] theorem Draws.useFull_engineMoves (d : Draws) : d.useFull.engineMoves = d.engineMoves := rfl
@[simp] theorem Draws.useFull_drWords (d : Draws) : d.useFull.drWords = d.drWords := rfl
@[simp] theorem Draws.useFull_queues (d : Draws) : d.useFull.queues = d.queues := rfl

@[simp] theorem Draws.useMoves_fifoFull (d : Draws) : d.useMoves.fifoFull = d.fifoFull := rfl
@[simp] theorem Draws.useMoves_engineMoves (d : Draws) : d.useMoves.engineMoves = d.engineMoves.use := rfl
@[simp] theorem Draws.useMoves_drWords (d : Draws) : d.useMoves.drWords = d.drWords := rfl
@[simp] theorem Draws.useMoves_queues (d : Draws) : d.useMoves.queues = d.queues := rfl

@[simp] theorem Draws.useDrWord_fifoFull (d : Draws) : d.useDrWord.fifoFull = d.fifoFull := rfl
@[simp] theorem Draws.useDrWord_engineMoves (d : Draws) : d.useDrWord.engineMoves = d.engineMoves := rfl
@[simp] theorem Draws.useDrWord_drWords (d : Draws) : d.useDrWord.drWords = d.drWords.use := rfl
@[simp] theorem Draws.useDrWord_queues (d : Draws) : d.useDrWord.queues = d.queues := rfl

@[simp] theorem Draws.useQueue_fifoFull (d : Draws) : d.useQueue.fifoFull = d.fifoFull := rfl
@[simp] theorem Draws.useQueue_engineMoves (d : Draws) : d.useQueue.engineMoves = d.engineMoves := rfl
@[simp] theorem Draws.useQueue_drWords (d : Draws) : d.useQueue.drWords = d.drWords := rfl
@[simp] theorem Draws.useQueue_queues (d : Draws) : d.useQueue.queues = d.queues.use := rfl

end Sys2Proof.Machine
end

