-- ==== Sys2Proof/Laws/Ops.lean ====
section
/-! SUPPORT. One lemma per shared operation that says once what it can do, and the small facts about the register
file, the code tables and the address map that proofs about the commands cite. -/

namespace Sys2Proof

@[simp] theorem PinFunction.ofCode_code (f : PinFunction) : PinFunction.ofCode f.code = f := by
  cases f <;> rfl

@[simp] theorem PinFunction.code_ofCode (c : BitVec 3) : (PinFunction.ofCode c).code = c := by
  revert c; decide

@[simp] theorem PullVariant.ofCode_code (v : PullVariant) : PullVariant.ofCode v.code = some v := by
  cases v <;> rfl

theorem PullVariant.code_of_ofCode {c : BitVec 2} {v : PullVariant} (h : PullVariant.ofCode c = some v) :
    v.code = c := by
  revert c v; decide

theorem PullVariant.ofCode_eq_none_iff {c : BitVec 2} : PullVariant.ofCode c = Option.none ↔ c = 0b11 := by
  revert c; decide

/-- The list of the fifteen locations is complete. -/
@[simp] theorem Location.mem_all (l : Location) : l ∈ Location.all := by
  rcases l with (n | k | k | _ | _ | _ | _) | _
  · revert n; decide
  · revert k; decide
  · revert k; decide
  all_goals decide

theorem Board.addr_toNat {c : Board} (h : c.WfMap) (l : Location) : (c.addr l).toNat = c.addrNat l := by
  simp only [Board.addr, BitVec.toNat_ofNat]
  exact Nat.mod_eq_of_lt (h.2.2 l (Location.mem_all l))

/-- Under WF_MAP the fifteen addresses are pairwise distinct as words. -/
theorem Board.addr_injective {c : Board} (h : c.WfMap) {l l' : Location} (e : c.addr l = c.addr l') : l = l' := by
  have hn : c.addrNat l = c.addrNat l' := by
    rw [← Board.addr_toNat h, ← Board.addr_toNat h, e]
  exact List.inj_on_of_nodup_map h.2.1 (Location.mem_all l) (Location.mem_all l') hn

/-- The look-up finds only a location that has the address. -/
theorem Board.addr_of_locate {c : Board} {a : Word} {l : Location} (h : c.locate a = some l) : c.addr l = a := by
  simpa using List.find?_some h

/-- Under WF_MAP the look-up finds every location at its address. -/
@[simp] theorem Board.locate_addr {c : Board} (h : c.WfMap) (l : Location) : c.locate (c.addr l) = some l := by
  cases e : c.locate (c.addr l) with
  | none =>
    have := List.find?_eq_none.mp e l (Location.mem_all l)
    simp at this
  | some l' => rw [Board.addr_injective h (Board.addr_of_locate e)]

theorem Board.locate_eq_none {c : Board} {a : Word} : c.locate a = none ↔ ∀ l, c.addr l ≠ a := by
  simp [Board.locate, List.find?_eq_none]

end Sys2Proof

namespace Sys2Proof.Machine

/-- A valid pin is one of 0 to 53 (41 R92). -/
theorem pinValid_iff {pin : Word} : pinValid pin = true ↔ pin.toNat ≤ 53 := decide_eq_true_iff

theorem pinValid_eq_false_iff {pin : Word} : pinValid pin = false ↔ 53 < pin.toNat := by
  rw [← Nat.not_le, ← pinValid_iff, Bool.not_eq_true]

/-- An accepted baud rate is not 0 and below 2^28 (42 R108). -/
theorem baudValid_iff {baud : Word} : baudValid baud = true ↔ baud.toNat ≠ 0 ∧ baud.toNat < 2 ^ 28 :=
  decide_eq_true_iff

/-- On a valid pin the FSEL index is p / 10 itself (R75). -/
theorem fselIndex_val {p : Nat} (h : p ≤ 53) : (fselIndex p).val = p / 10 :=
  Nat.mod_eq_of_lt (by omega)

/-- On a valid pin the pull index is p / 32 itself (R75). -/
theorem pullIndex_val {p : Nat} (h : p ≤ 53) : (pullIndex p).val = p / 32 :=
  Nat.mod_eq_of_lt (by omega)

@[simp] theorem RegFile.read_write_same (f : RegFile) (r : Reg) (v : Word) : (f.write r v).read r = v := by
  cases r <;> simp [RegFile.write, RegFile.read]

@[simp] theorem RegFile.read_write_other (f : RegFile) {r r' : Reg} (v : Word) (h : r' ≠ r) :
    (f.write r v).read r' = f.read r' := by
  cases r <;> cases r' <;> simp_all [RegFile.write, RegFile.read, Fin.ext_iff, eq_comm]

/-- Two register files that read alike are equal. -/
theorem RegFile.ext_read {f g : RegFile} (h : ∀ r, f.read r = g.read r) : f = g := by
  obtain ⟨f1, f2, f3, f4, f5, f6, f7⟩ := f
  obtain ⟨g1, g2, g3, g4, g5, g6, g7⟩ := g
  have e1 : f1 = g1 := Vector.ext fun i hi => h (.fsel ⟨i, hi⟩)
  have e2 : f2 = g2 := Vector.ext fun i hi => h (.pud ⟨i, hi⟩)
  have e3 : f3 = g3 := Vector.ext fun i hi => h (.pudclk ⟨i, hi⟩)
  have e4 : f4 = g4 := h .ibrd
  have e5 : f5 = g5 := h .fbrd
  have e6 : f6 = g6 := h .lcrh
  have e7 : f7 = g7 := h .cr
  simp [e1, e2, e3, e4, e5, e6, e7]

/-- A second write to a register replaces the first. -/
@[simp] theorem RegFile.write_write (f : RegFile) (r : Reg) (v w : Word) :
    (f.write r v).write r w = f.write r w := by
  apply RegFile.ext_read
  intro q
  by_cases h : q = r
  · subst h; simp
  · simp [h]

/-- Writes to different registers may be swapped. -/
theorem RegFile.write_comm (f : RegFile) {r r' : Reg} (v w : Word) (h : r ≠ r') :
    (f.write r v).write r' w = (f.write r' w).write r v := by
  apply RegFile.ext_read
  intro q
  by_cases h1 : q = r
  · subst h1; simp [h]
  · by_cases h2 : q = r'
    · subst h2; simp [h1]
    · simp [h1, h2]

@[simp] theorem State.countDown_eq (n : Nat) (s : State) : State.countDown n s = { s with dly := 0 } := by
  induction n generalizing s with
  | zero => rfl
  | succ n ih => simp [State.countDown, ih]

/-- What `Delay(n)` does: the counter ends at 0 and the event is traced. -/
theorem State.delay_eq (n : Nat) (s : State) :
    s.delay n = { s with dly := 0, trace := s.trace ++ [.dly n], upc := s.upc.next } := by
  simp [State.delay, State.record, State.advance]

theorem State.memRead_reg (r : Reg) (s : State) :
    s.memRead (.reg r) = (s.regs.read r,
      { s with trace := s.trace ++ [.rd (s.cfg.addr (.reg r)) (s.regs.read r)], upc := s.upc.next }) := rfl

theorem State.memRead_dr (s : State) :
    s.memRead .dr = (s.draws.drWord,
      { s with
        draws := s.draws.useDrWord
        trace := s.trace ++ [.rd (s.cfg.addr .dr) s.draws.drWord]
        upc := s.upc.next }) := rfl

theorem State.memWrite_reg (r : Reg) (v : Word) (s : State) :
    s.memWrite (.reg r) v =
      { s with
        regs := s.regs.write r v
        trace := s.trace ++ [.wr (s.cfg.addr (.reg r)) v]
        upc := s.upc.next } := rfl

theorem State.memWrite_dr (v : Word) (s : State) :
    s.memWrite .dr v =
      { s with
        txq := s.txq ++ [drByte v]
        trace := s.trace ++ [.wr (s.cfg.addr .dr) v]
        upc := s.upc.next } := rfl

/-- At a write of CR only `txq` and the draws may change, the queue gets no longer, and an empty one changes nothing. -/
theorem State.disturbQueue_cases (s : State) :
    (s.txq = [] ∧ s.disturbQueue = s) ∨
      (s.txq ≠ [] ∧ s.disturbQueue =
        { s with txq := s.draws.queue.take s.txq.length, draws := s.draws.useQueue }) := by
  by_cases h : s.txq = [] <;> simp [State.disturbQueue, h]

/-- The transmit engine does nothing, or moves bytes of the queue, in order, to the output. -/
theorem State.engine_cases (s : State) :
    s.engine = s ∨
      (s.uart = .initialized ∧ s.txq ≠ [] ∧
        s.engine = { s with draws := s.draws.useMoves }.moveBytes s.draws.moves) := by
  by_cases h : s.uart = .initialized ∧ s.txq ≠ []
  · exact .inr ⟨h.1, h.2, by simp [State.engine, h]⟩
  · exact .inl (by simp only [State.engine, if_neg h])

/-- The engine's move at the completion of a command changes the outcome of no other kind. -/
theorem thenEngine_eq_next {o : Host.Outcome State Fault Refusal} {t : State} :
    thenEngine o = .next t ↔ ∃ u, o = .next u ∧ t = u.engine := by
  cases o <;> simp [thenEngine, eq_comm]

@[simp] theorem thenEngine_next (s : State) : thenEngine (.next s) = .next s.engine := rfl

/-- Whatever the engine moves, the output followed by the queue stays the same sequence. -/
@[simp] theorem State.moveBytes_bytes (n : Nat) (s : State) :
    (s.moveBytes n).txOut ++ (s.moveBytes n).txq = s.txOut ++ s.txq := by
  simp [List.append_assoc]

/-- The FIFO is found not full exactly when it holds some bytes and the draw says so. -/
theorem State.fifoIsFull_eq_false {s : State} :
    s.fifoIsFull = false ↔ 0 < s.cfg.fifoDepth ∧ s.draws.full = false := by
  simp [State.fifoIsFull, Nat.pos_iff_ne_zero]

/-- The checks of a DR write look at the configuration, `uart_state` and the coming FIFO-full draw only. -/
theorem State.drFault_congr {s t : State} (y : Byte) (hc : t.cfg = s.cfg) (hu : t.uart = s.uart)
    (hd : t.draws.full = s.draws.full) : t.drFault y = s.drFault y := by
  simp [State.drFault, State.fifoIsFull, hc, hu, hd]

theorem State.drFault_eq_none {y : Byte} {s : State} :
    s.drFault y = none ↔ s.uart = .initialized ∧ s.fifoIsFull = false := by
  unfold State.drFault
  cases s.uart <;> cases s.fifoIsFull <;> simp

theorem State.drFault_uninitialized {y : Byte} {s : State} (h : s.uart = .uninitialized) :
    s.drFault y = some .uartNotInitialized := by
  simp [State.drFault, h]

theorem State.drFault_full {y : Byte} {s : State} (h : s.uart = .initialized) (hf : s.fifoIsFull = true) :
    s.drFault y = some (.uartFifoOverflow y) := by
  simp [State.drFault, h, hf]

/-- What a DR write that passed its checks does. -/
theorem State.drWrite_eq (v : Word) (s : State) :
    s.drWrite v =
      { s with
        txOut := s.txOut ++ s.txq.take (s.txq.length + 1 - s.cfg.fifoDepth)
        txq := s.txq.drop (s.txq.length + 1 - s.cfg.fifoDepth) ++ [drByte v]
        trace := s.trace ++ [.wr (s.cfg.addr .dr) v]
        draws := s.draws.useFull
        upc := s.upc.next } := rfl

theorem Upc.isIdle_iff {u : Upc} : u.isIdle = true ↔ u = .idle := by
  cases u <;> simp [Upc.isIdle]

theorem State.accepts_iff {s : State} :
    s.accepts = true ↔ s.fault = none ∧ s.halted = false ∧ s.upc = .idle := by
  simp [State.accepts, Upc.isIdle_iff, and_assoc]

/-- What taking the next command can do. -/
theorem State.fetch_cases (s : State) :
    (s.fetch = (none, s) ∧ (s.accepts = false ∨ s.port = [])) ∨
      (∃ c rest, s.accepts = true ∧ s.port = c :: rest ∧
        ((∃ i, decode c = .ok i ∧ s.fetch = (some i, { s with port := rest }.load c)) ∨
          (∃ e, decode c = .error e ∧
            s.fetch = (none, { s with port := rest }.raise (.illegalCommand c.cw))))) := by
  cases ha : s.accepts with
  | false => exact .inl ⟨by simp [State.fetch, ha], .inl rfl⟩
  | true =>
    cases hp : s.port with
    | nil => exact .inl ⟨by simp [State.fetch, ha, hp], .inr rfl⟩
    | cons c rest =>
      refine .inr ⟨c, rest, rfl, rfl, ?_⟩
      cases hd : decode c with
      | ok i => exact .inl ⟨i, rfl, by simp [State.fetch, ha, hp, hd]⟩
      | error e => exact .inr ⟨e, rfl, by simp [State.fetch, ha, hp, hd]⟩

/-- What SET_FUNCTION does on a valid pin. -/
theorem State.setField_eq (p : Nat) (code : BitVec 3) (s : State) :
    s.setField p code =
      { s with
        t := s.regs.read (.fsel (fselIndex p))
        regs := s.regs.write (.fsel (fselIndex p)) (withField (s.regs.read (.fsel (fselIndex p))) p code)
        trace := s.trace ++
          [.rd (s.cfg.addr (.reg (.fsel (fselIndex p)))) (s.regs.read (.fsel (fselIndex p))),
            .wr (s.cfg.addr (.reg (.fsel (fselIndex p)))) (withField (s.regs.read (.fsel (fselIndex p))) p code)]
        upc := s.upc.next.next } := by
  simp [State.setField, State.readIntoT, State.setT, State.memRead_reg, State.memWrite_reg]

/-- What the pull handshake does on a valid pin. -/
theorem State.pullHandshake_eq (p : Nat) (v : PullVariant) (s : State) :
    s.pullHandshake p v =
      { s with
        regs := (s.regs.write (.pud (pullIndex p)) 0).write (.pudclk (pullIndex p)) 0
        pull := s.pull.setIfInBounds p (.latched v)
        dly := 0
        trace := s.trace ++
          [.wr (s.cfg.addr (.reg (.pud (pullIndex p)))) (v.code.setWidth 32), .dly nDelay,
            .wr (s.cfg.addr (.reg (.pudclk (pullIndex p)))) (clockMask p), .dly nDelay,
            .wr (s.cfg.addr (.reg (.pud (pullIndex p)))) 0, .wr (s.cfg.addr (.reg (.pudclk (pullIndex p)))) 0]
        upc := s.upc.next.next.next.next.next.next } := by
  have h : ∀ w x y : Word, ((s.regs.write (.pud (pullIndex p)) w).write (.pudclk (pullIndex p)) x).write
      (.pud (pullIndex p)) y = (s.regs.write (.pud (pullIndex p)) y).write (.pudclk (pullIndex p)) x := by
    intro w x y
    rw [RegFile.write_comm _ _ _ (by simp), RegFile.write_write]
  simp [State.pullHandshake, State.delay_eq, State.memWrite_reg, State.latchPull, h]

/-- What the sequence of INITIALIZE does at a valid baud rate; `disturbQueue_cases` says what becomes of the queue. -/
theorem State.uartSequence_eq (baud : Word) (s : State) :
    s.uartSequence baud =
      { s with
        regs := { s.regs with
          cr := crEnable, ibrd := ibrdWord baud, fbrd := fbrdWord baud, lcrh := s.regs.lcrh ||| lcrh8n1 }
        uart := .initialized
        t := s.regs.lcrh
        txq := s.disturbQueue.txq
        draws := s.disturbQueue.draws
        trace := s.trace ++
          [.wr (s.cfg.addr (.reg .cr)) 0, .wr (s.cfg.addr (.reg .ibrd)) (ibrdWord baud),
            .wr (s.cfg.addr (.reg .fbrd)) (fbrdWord baud), .rd (s.cfg.addr (.reg .lcrh)) s.regs.lcrh,
            .wr (s.cfg.addr (.reg .lcrh)) (s.regs.lcrh ||| lcrh8n1), .wr (s.cfg.addr (.reg .cr)) crFifoPhase,
            .wr (s.cfg.addr (.reg .cr)) crEnable]
        upc := s.upc.next.next.next.next.next.next.next } := by
  by_cases h : s.txq = [] <;>
    simp [State.uartSequence, State.disturbQueue, State.memWrite_reg, State.readIntoT, State.setT,
      State.memRead_reg, State.setUart, RegFile.write, RegFile.read, h]

/-- Every command answers a next state. -/
theorem exec_next (i : Instr) (s : State) : ∃ t, exec i s = .next t := by
  cases i with
  | regRead addr =>
    simp only [exec, execRegRead]; split <;> exact ⟨_, rfl⟩
  | regWrite addr data =>
    simp only [exec, execRegWrite]; split
    · exact ⟨_, rfl⟩
    · split <;> exact ⟨_, rfl⟩
    · exact ⟨_, rfl⟩
  | pinConstruct pin => exact ⟨_, rfl⟩
  | setFunction pin code =>
    simp only [exec, execSetFunction]; split <;> exact ⟨_, rfl⟩
  | setPullUpDown pin code =>
    simp only [exec, execSetPullUpDown]; split
    · split <;> exact ⟨_, rfl⟩
    · exact ⟨_, rfl⟩
  | uartConstruct base =>
    simp only [exec, execUartConstruct]; split <;> exact ⟨_, rfl⟩
  | uartInitialize baud =>
    simp only [exec, execUartInitialize]; split <;> exact ⟨_, rfl⟩
  | transmit byte =>
    simp only [exec, execTransmit]; split <;> exact ⟨_, rfl⟩
  | transmitText text => exact ⟨_, rfl⟩
  | halt => exact ⟨_, rfl⟩

end Sys2Proof.Machine
end

