-- ==== Sys2Proof/Laws/PerInstr.lean ====
section
/-! SUPPORT. The per-instruction family OpNumber: the encoded word of a command is the number {op, a, b} of
30_encoding.md R72 with the operation number R74 gives its row. -/

namespace Sys2Proof.Laws

/-- The encoded word is the number {op, a, b} of R72, with the operation number of the row (R74) on top. -/
def OpNumber.Statement (i : Instr) : Prop :=
  (encode i).cw.toNat = i.opNumber.toNat * 2 ^ 64 + i.fieldA.toNat * 2 ^ 32 + i.fieldB.toNat

/-- A command word as a number. -/
theorem commandWord_toNat (op : BitVec 4) (a b : Word) :
    (commandWord op a b).toNat = op.toNat * 2 ^ 64 + a.toNat * 2 ^ 32 + b.toNat := by
  have ha := a.isLt
  have hb := b.isLt
  simp only [commandWord, BitVec.toNat_append]
  rw [← Nat.shiftLeft_add_eq_or_of_lt ha, ← Nat.shiftLeft_add_eq_or_of_lt hb]
  simp only [Nat.shiftLeft_eq]
  omega

theorem OpNumber.regRead (addr : Word) : OpNumber.Statement (.regRead addr) :=
  commandWord_toNat _ _ _

theorem OpNumber.regWrite (addr data : Word) : OpNumber.Statement (.regWrite addr data) :=
  commandWord_toNat _ _ _

theorem OpNumber.pinConstruct (pin : Word) : OpNumber.Statement (.pinConstruct pin) :=
  commandWord_toNat _ _ _

theorem OpNumber.setFunction (pin : Word) (code : BitVec 3) : OpNumber.Statement (.setFunction pin code) :=
  commandWord_toNat _ _ _

theorem OpNumber.setPullUpDown (pin : Word) (code : BitVec 2) : OpNumber.Statement (.setPullUpDown pin code) :=
  commandWord_toNat _ _ _

theorem OpNumber.uartConstruct (base : Word) : OpNumber.Statement (.uartConstruct base) :=
  commandWord_toNat _ _ _

theorem OpNumber.uartInitialize (baud : Word) : OpNumber.Statement (.uartInitialize baud) :=
  commandWord_toNat _ _ _

theorem OpNumber.transmit (byte : Byte) : OpNumber.Statement (.transmit byte) :=
  commandWord_toNat _ _ _

theorem OpNumber.transmitText (text : List Byte) : OpNumber.Statement (.transmitText text) :=
  commandWord_toNat _ _ _

theorem OpNumber.halt : OpNumber.Statement .halt :=
  commandWord_toNat _ _ _

end Sys2Proof.Laws
end

