-- ==== Sys2Proof/Laws/Transmit.lean ====
section
/-! SUPPORT. What transmitting a sequence of bytes does, said once: a prefix of it is written, in order, and all of
it unless a check raises a fault. -/

namespace Sys2Proof.Machine

/-- The events of writing bytes to DR. -/
def writeEvents (c : Board) (bytes : List Byte) : List Event :=
  bytes.map fun y => .wr (c.addr .dr) (drWord y)

@[simp] theorem drByte_drWord (y : Byte) : drByte (drWord y) = y := by
  ext i h
  have h32 : i < 32 := by omega
  simp [drByte, drWord, h32, BitVec.getLsbD_eq_getElem h]

/-- The bytes before the fault, if there is one, are written in order and stay; nothing but the trace, the queue, the
output, the draws, `upc` and the fault mark changes. -/
theorem State.transmitBytes_spec (text : List Byte) (s : State) :
    ∃ pre post, text = pre ++ post ∧
      (s.transmitBytes text).trace = s.trace ++ writeEvents s.cfg pre ∧
      (s.transmitBytes text).txOut ++ (s.transmitBytes text).txq = s.txOut ++ s.txq ++ pre ∧
      s.transmitBytes text =
        { s with
          trace := (s.transmitBytes text).trace
          txOut := (s.transmitBytes text).txOut
          txq := (s.transmitBytes text).txq
          draws := s.draws.afterFull pre.length
          upc := (s.transmitBytes text).upc
          fault := (s.transmitBytes text).fault } ∧
      (post = [] ∧ (s.transmitBytes text).fault = s.fault ∨
        ∃ y ys, post = y :: ys ∧ (s.transmitBytes text).fault =
          { s with draws := s.draws.afterFull pre.length }.drFault y ∧
          (s.transmitBytes text).fault ≠ none) := by
  induction text generalizing s with
  | nil => exact ⟨[], [], rfl, by simp [State.transmitBytes, writeEvents, Draws.afterFull]⟩
  | cons y ys ih =>
    cases hf : s.drFault y with
    | some f =>
      refine ⟨[], y :: ys, rfl, ?_⟩
      simp [State.transmitBytes, hf, writeEvents, Draws.afterFull, State.raise]
    | none =>
      have he : s.transmitBytes (y :: ys) = (s.drWrite (drWord y)).transmitBytes ys := by
        simp [State.transmitBytes, hf]
      obtain ⟨pre, post, h1, h2, h3, h4, h5⟩ := ih (s.drWrite (drWord y))
      rw [he]
      refine ⟨y :: pre, post, by simp [h1], ?_, ?_, ?_, ?_⟩
      · rw [h2]; simp [State.drWrite_eq, writeEvents]
      · rw [h3]; simp only [State.drWrite_eq, drByte_drWord, List.append_assoc]
        rw [← List.append_assoc (List.take _ _), List.take_append_drop]; simp
      · rw [h4]; simp [State.drWrite_eq, Draws.afterFull]
      · rcases h5 with ⟨h5, h6⟩ | ⟨z, zs, h5, h6, h7⟩
        · exact .inl ⟨h5, by rw [h6]; simp [State.drWrite_eq]⟩
        · refine .inr ⟨z, zs, h5, ?_, h7⟩
          rw [h6]; simp [State.drFault, State.fifoIsFull, State.drWrite_eq, Draws.afterFull]

end Sys2Proof.Machine
end

