-- ==== Sys2Proof/Laws/Run.lean ====
section
/-! SUPPORT. What the engine and a step can do, said once; the FIFO-full draws that are still to come; runs with no
command waiting. -/

namespace Sys2Proof.Machine

/-- The coming FIFO-full draws depend on their own supply alone (log 10). -/
theorem Draws.afterFull_full_congr {d e : Draws} (h : d.fifoFull = e.fifoFull) (n : Nat) :
    (d.afterFull n).full = (e.afterFull n).full := by
  induction n generalizing d e with
  | zero => simp [Draws.afterFull, Draws.full, h]
  | succ n ih => exact ih (by simp [h])

/-- FIFO-full draws taken one after the other. -/
theorem Draws.afterFull_succ (d : Draws) (n : Nat) : d.afterFull (n + 1) = (d.afterFull n).useFull := by
  induction n generalizing d with
  | zero => rfl
  | succ n ih => exact ih d.useFull

/-- Only the configuration and the supply of FIFO-full draws decide about NoOverflowFor. -/
theorem State.NoOverflowFor.congr {s t : State} {n : Nat} (hc : t.cfg = s.cfg)
    (hd : t.draws.fifoFull = s.draws.fifoFull) (h : s.NoOverflowFor n) : t.NoOverflowFor n := by
  intro j hj
  have := h j hj
  rw [State.fifoIsFull_eq_false] at this ⊢
  exact ⟨hc ▸ this.1, Draws.afterFull_full_congr hd j ▸ this.2⟩

/-- The engine leaves all but the output, the queue and the draws alone. -/
theorem State.engine_eq (s : State) :
    s.engine = { s with txOut := s.engine.txOut, txq := s.engine.txq, draws := s.engine.draws } := by
  rcases s.engine_cases with h | ⟨_, _, h⟩ <;> rw [h]
  simp [State.moveBytes]

/-- Whatever the engine moves, the output followed by the queue stays the same sequence. -/
@[simp] theorem State.engine_bytes (s : State) : s.engine.txOut ++ s.engine.txq = s.txOut ++ s.txq := by
  rcases s.engine_cases with h | ⟨_, _, h⟩ <;> simp [h]

@[simp] theorem State.engine_cfg (s : State) : s.engine.cfg = s.cfg := by rw [s.engine_eq]
@[simp] theorem State.engine_regs (s : State) : s.engine.regs = s.regs := by rw [s.engine_eq]
@[simp] theorem State.engine_uart (s : State) : s.engine.uart = s.uart := by rw [s.engine_eq]
@[simp] theorem State.engine_halted (s : State) : s.engine.halted = s.halted := by rw [s.engine_eq]
@[simp] theorem State.engine_fault (s : State) : s.engine.fault = s.fault := by rw [s.engine_eq]
@[simp] theorem State.engine_a (s : State) : s.engine.a = s.a := by rw [s.engine_eq]
@[simp] theorem State.engine_b (s : State) : s.engine.b = s.b := by rw [s.engine_eq]
@[simp] theorem State.engine_t (s : State) : s.engine.t = s.t := by rw [s.engine_eq]
@[simp] theorem State.engine_upc (s : State) : s.engine.upc = s.upc := by rw [s.engine_eq]
@[simp] theorem State.engine_pull (s : State) : s.engine.pull = s.pull := by rw [s.engine_eq]
@[simp] theorem State.engine_dly (s : State) : s.engine.dly = s.dly := by rw [s.engine_eq]
@[simp] theorem State.engine_trace (s : State) : s.engine.trace = s.trace := by rw [s.engine_eq]
@[simp] theorem State.engine_rdata (s : State) : s.engine.rdata = s.rdata := by rw [s.engine_eq]
@[simp] theorem State.engine_port (s : State) : s.engine.port = s.port := by rw [s.engine_eq]

@[simp] theorem State.engine_accepts (s : State) : s.engine.accepts = s.accepts := by simp [State.accepts]

/-- The engine takes draws of its own kind only (log 10). -/
@[simp] theorem State.engine_fifoFull (s : State) : s.engine.draws.fifoFull = s.draws.fifoFull := by
  rcases s.engine_cases with h | ⟨_, _, h⟩ <;> simp [h]

/-- What a step that answers a next state can do: no command, a command between two moves of the engine, or an illegal
command. -/
theorem step_cases {s t : State} (h : step s = .next t) :
    s.cfg.WfMap ∧
      ((t = s.engine ∧ (s.accepts = false ∨ s.port = [])) ∨
        ∃ c rest, s.accepts = true ∧ s.port = c :: rest ∧
          ((∃ i u, decode c = .ok i ∧ exec i ({ s.engine with port := rest }.load c) = .next u ∧ t = u.engine) ∨
            ∃ e, decode c = .error e ∧ t = { s.engine with port := rest }.raise (.illegalCommand c.cw))) := by
  by_cases hw : s.cfg.WfMap
  · refine ⟨hw, ?_⟩
    simp only [step, if_pos hw] at h
    rcases s.engine.fetch_cases with ⟨hf, hn⟩ | ⟨c, rest, ha, hp, ⟨i, hd, hf⟩ | ⟨e, hd, hf⟩⟩ <;> rw [hf] at h
    · exact .inl ⟨by simpa using h.symm, by simpa using hn⟩
    · obtain ⟨u, hx, ht⟩ := thenEngine_eq_next.mp h
      exact .inr ⟨c, rest, by simpa using ha, by simpa using hp, .inl ⟨i, u, hd, hx, ht⟩⟩
    · exact .inr ⟨c, rest, by simpa using ha, by simpa using hp, .inr ⟨e, hd, by simpa using h.symm⟩⟩
  · simp [step, hw] at h

/-- A step with no command waiting is the engine's move. -/
theorem step_port_nil {s t : State} (hp : s.port = []) (h : step s = .next t) : t = s.engine := by
  obtain ⟨-, ⟨ht, -⟩ | ⟨c, rest, -, hc, -⟩⟩ := step_cases h
  · exact ht
  · rw [hp] at hc; cases hc

/-- A run with no command waiting never gets one. -/
theorem Reaches.port_nil {s t : State} (hp : s.port = []) (h : Reaches s t) : t.port = [] := by
  induction h with
  | start => exact hp
  | next _ hs ih =>
    rw [step_port_nil ih hs]
    simpa using ih

/-- With no command waiting no FIFO-full draw is taken. -/
theorem State.fullDrawsNext_port_nil {s : State} (hp : s.port = []) : s.fullDrawsNext = 0 := by
  unfold State.fullDrawsNext State.fetch
  rw [hp]
  split
  · split <;> simp_all
  · rfl

/-- A run with no command waiting has no FIFO-full draw that could answer "full". -/
theorem State.noOverflow_of_port_nil {s : State} (hp : s.port = []) : s.NoOverflow := by
  intro t ht j hj
  rw [State.fullDrawsNext_port_nil (ht.port_nil hp)] at hj
  exact absurd hj (Nat.not_lt_zero j)

/-- What is reached from `s` is `s` or is reached from its next state. -/
theorem Reaches.cases_first {s t : State} (h : Reaches s t) : t = s ∨ ∃ u, step s = .next u ∧ Reaches u t := by
  induction h with
  | start => exact .inl rfl
  | next _ hs ih =>
    rcases ih with rfl | ⟨u, hu, hr⟩
    · exact .inr ⟨_, hs, .start⟩
    · exact .inr ⟨u, hu, .next hr hs⟩

/-- NoOverflow of a run: of its first step, and of the run from its next state. -/
theorem State.noOverflow_of_step {s : State} (h : s.NoOverflowFor s.fullDrawsNext)
    (hn : ∀ t, step s = .next t → t.NoOverflow) : s.NoOverflow := by
  intro t ht
  rcases ht.cases_first with rfl | ⟨u, hu, hr⟩
  · exact h
  · exact hn u hu t hr

end Sys2Proof.Machine
end

