-- ==== Sys2Proof/Tests/Slice0.lean ====
section
/-! SUPPORT. Tests of one step each, with the results of 95_test_vectors.md (V...), the smoke test of WellFormed, a
decoded word for every command, and a witness for the hypotheses of every statement that has some. -/

namespace Sys2Proof.Tests

open Sys2Proof.Machine

/-! ### States -/

/-- Reset, with the draws of the FIFO listed. -/
def start (full : List Bool) : State :=
  { State.reset with draws := { Draws.unlisted with fifoFull := ⟨full, 0⟩ } }

/-- `start` with the transmitter Initialized as INITIALIZE at 115200 baud leaves it, and some bytes queued. -/
def ready (full : List Bool) (queued : List Byte) : State :=
  { start full with
    uart := .initialized
    txq := queued
    regs := { RegFile.zero with ibrd := ibrdWord 115200, fbrd := fbrdWord 115200, lcrh := 0x60, cr := 0x301 } }

/-- `start` with one function-select word. -/
def withFsel (n : Fin 6) (w : Word) : State := { start [] with regs := RegFile.zero.write (.fsel n) w }

/-- A state under a configuration that WF_MAP does not admit: PUD[0] would stand where FSEL[0] does. -/
def misplaced : State := { State.reset with cfg := { Board.cfgA with pudOff := 0 } }

/-- CFG_A with a FIFO that holds no bytes, which 00_scope.md R4 does not exclude. -/
def noFifo : Board := { Board.cfgA with fifoDepth := 0 }

/-- Whether an outcome is a next state with a property. -/
def leads (p : State → Bool) : Host.Outcome State Fault Refusal → Bool
  | .next t => p t
  | .fault _ => false
  | .refused _ => false

/-! ### WellFormed -/

theorem test_wf_good : (Instr.transmitText [0x48, 0x69]).wf = true ∧ (Instr.setFunction 54 7).wf = true := by decide

/-- The one check of WellFormed refuses a text whose length does not fit operand `a` (R73). -/
theorem test_wf_long_text : (Instr.transmitText (List.replicate (2 ^ 32) 0)).wf = false := by
  simp only [Instr.wf, List.length_replicate]; decide

/-! ### Decoding: words of 95_test_vectors.md, and bits the format fixes at 0 (R76) -/

theorem test_decode_regRead : decode ⟨0x0_3F200004_00000000#68, []⟩ = .ok (.regRead 0x3F200004) := by decide
theorem test_decode_regWrite :
    decode ⟨0x1_3F200000_09249249#68, []⟩ = .ok (.regWrite 0x3F200000 0x09249249) := by decide
theorem test_decode_pinConstruct : decode ⟨0x2_00000036_00000000#68, []⟩ = .ok (.pinConstruct 54) := by decide
theorem test_decode_setFunction : decode ⟨0x3_0000000E_00000004#68, []⟩ = .ok (.setFunction 14 4) := by decide
theorem test_decode_setPullUpDown :
    decode ⟨0x4_00000020_00000001#68, []⟩ = .ok (.setPullUpDown 32 1) := by decide
theorem test_decode_uartConstruct :
    decode ⟨0x5_FE201000_00000000#68, []⟩ = .ok (.uartConstruct 0xFE201000) := by decide
theorem test_decode_uartInitialize :
    decode ⟨0x6_00002580_00000000#68, []⟩ = .ok (.uartInitialize 9600) := by decide
theorem test_decode_transmit : decode ⟨0x7_00000048_00000000#68, []⟩ = .ok (.transmit 0x48) := by decide
theorem test_decode_transmitText :
    decode ⟨0x8_00000003_00000000#68, [0x41, 0x42, 0x43]⟩ = .ok (.transmitText [0x41, 0x42, 0x43]) := by decide
theorem test_decode_halt : decode ⟨0x9_DEADBEEF_12345678#68, []⟩ = .ok .halt := by decide

/-- V2.21, V3.12, V5.6, V5.13, V7.8, V7.9. -/
theorem test_decode_illegal :
    decode ⟨0x3_0000000E_00000008#68, []⟩ = .error .mustBeZero ∧
    decode ⟨0x4_0000000E_00000004#68, []⟩ = .error .mustBeZero ∧
    decode ⟨0x7_00000100_00000000#68, []⟩ = .error .mustBeZero ∧
    decode ⟨0x8_00000002_00000000#68, [0x48]⟩ = .error .textLength ∧
    decode ⟨0xA_00000000_00000000#68, []⟩ = .error .noSuchOperation ∧
    decode ⟨0xF_FFFFFFFF_FFFFFFFF#68, []⟩ = .error .noSuchOperation := by decide

/-! ### One command each -/

/-- V6.1. -/
theorem test_regRead : leads (fun t => t.rdata = 0x00024000 ∧ t.trace = [.rd 0x3F200004 0x00024000])
    (exec (.regRead 0x3F200004) (withFsel 1 0x00024000)) = true := by decide

/-- V6.4. -/
theorem test_regRead_misaligned : leads (fun t => t.fault = some (.unbackedAddress 0x3F200002) ∧ t.trace = [])
    (exec (.regRead 0x3F200002) State.reset) = true := by decide

/-- V6.8: PUD[0] is of chain 0, pins 0 to 31. -/
theorem test_regWrite_pull : leads (fun t => t.regs.pud[0] = 1 ∧ t.pull[31] = .unspecified ∧
      t.pull[32] = .latched .pullDown ∧ t.trace = [.wr 0x3F200094 1])
    (exec (.regWrite 0x3F200094 1) { State.reset with pull := Vector.replicate 54 (.latched .pullDown) }) = true := by
  decide

/-- V6.12: the whole word is traced, its low byte is submitted. -/
theorem test_regWrite_dr : leads (fun t => t.txq = [0x41] ∧ t.trace = [.wr 0x3F201000 0x141] ∧ t.uart = .initialized)
    (exec (.regWrite 0x3F201000 0x141) (ready [false] [])) = true := by decide

/-- R93, with the first invalid pin. -/
theorem test_pinConstruct : leads (fun t => t.fault = none ∧ t.trace = [] ∧ t.regs = RegFile.zero)
    (exec (.pinConstruct 54) State.reset) = true := by decide

/-- V2.4: the highest field; bits 31 and 30 stay. -/
theorem test_setFunction : leads (fun t => t.trace = [.rd 0x3F200000 0xFFFFFFFF, .wr 0x3F200000 0xC7FFFFFF])
    (exec (.setFunction 9 0) (withFsel 0 0xFFFFFFFF)) = true := by decide

/-- V2.13: the last pin. -/
theorem test_setFunction_last_pin : leads (fun t => t.regs.fsel[5] = 0xFFFFF600 ∧ t.pinFn 53 = .alt4)
    (exec (.setFunction 53 0b011) (withFsel 5 0xFFFFF000)) = true := by decide

/-- V3.2: the last pin of chain 0. -/
theorem test_setPullUpDown : leads (fun t => t.pull[31] = .latched .pullUp ∧ t.trace =
      [.wr 0x3F200094 2, .dly 150, .wr 0x3F200128 0x80000000, .dly 150, .wr 0x3F200094 0, .wr 0x3F200128 0])
    (exec (.setPullUpDown 31 0b10) State.reset) = true := by decide

/-- V3.11: the pin is checked before the code. -/
theorem test_setPullUpDown_two_faults : leads (fun t => t.fault = some (.invalidPinIdentifier 54) ∧ t.trace = [])
    (exec (.setPullUpDown 54 0b11) State.reset) = true := by decide

/-- V7.2. -/
theorem test_uartConstruct : leads (fun t => t.fault = some (.unsupportedPlatform 0xFE201000))
    (exec (.uartConstruct 0xFE201000) State.reset) = true := by decide

/-- The full trace given below V4.23, with F = FBRD_FN(UART_CLK, 9600) whatever it is. -/
theorem test_uartInitialize :
    ∃ t, exec (.uartInitialize 9600) { State.reset with regs := { RegFile.zero with lcrh := 0xA } } = .next t ∧
      t.uart = .initialized ∧ t.trace =
        [.wr 0x3F201030 0, .wr 0x3F201024 0x138, .wr 0x3F201028 (Config.fbrdFn 48000000 9600), .rd 0x3F20102C 0xA,
          .wr 0x3F20102C 0x6A, .wr 0x3F201030 0xC5, .wr 0x3F201030 0x301] :=
  ⟨_, rfl, rfl, rfl⟩

/-- V4.25. -/
theorem test_uartInitialize_fault : leads (fun t => t.fault = some (.invalidBaud 0x10000000) ∧ t.trace = [])
    (exec (.uartInitialize 0x10000000) State.reset) = true := by decide

/-- V5.3: no sign extension. -/
theorem test_transmit : leads (fun t => t.trace = [.wr 0x3F201000 0xFF] ∧ t.txq = [0xFF])
    (exec (.transmit 0xFF) (ready [false] [])) = true := by decide

/-- V5.4: Uninitialized is checked before the FIFO; and R37 at FIFO_DEPTH = 0: the queue holds no byte, whatever the
draw answers. -/
theorem test_transmit_faults :
    leads (fun t => t.fault = some .uartNotInitialized ∧ t.trace = [])
      (exec (.transmit 0x48) (start [true])) = true ∧
    leads (fun t => t.fault = some (.uartFifoOverflow 0x48) ∧ t.txq = [] ∧ t.trace = [])
      (exec (.transmit 0x48) { ready [false] [] with cfg := noFifo }) = true := by decide

/-- V5.11. -/
theorem test_transmitText : leads (fun t => t.fault = some (.uartFifoOverflow 0x43) ∧ t.txq = [0x41, 0x42] ∧
      t.trace = [.wr 0x3F201000 0x41, .wr 0x3F201000 0x42])
    (exec (.transmitText [0x41, 0x42, 0x43]) (ready [false, false, true] [])) = true := by decide

/-- V5.9: an empty text is checked for nothing. -/
theorem test_transmitText_empty : leads (fun t => t.fault = none ∧ t.trace = [])
    (exec (.transmitText []) (start [])) = true := by decide

/-- V7.5. -/
theorem test_halt : leads (fun t => t.halted = true ∧ t.trace = []) (exec .halt State.reset) = true := by decide

/-! ### The step -/

/-- A word of the table, placed and run as the first command after reset (P2, command 1). -/
theorem test_step_runs_the_word : leads (fun t => t.pull[31] = .latched .pullUp ∧ t.port = [] ∧ t.upc = .idle)
    (step (State.reset.withFetchWord 72 0x4_0000001F_00000002)) = true := by decide

/-- R120: the engine moves the listed number of bytes from the head of the queue. -/
theorem test_engine_moves : leads (fun t => t.txOut = [0x48] ∧ t.txq = [0x69] ∧ t.trace = [])
    (step { ready [] [0x48, 0x69] with draws := { Draws.unlisted with engineMoves := ⟨[1], 0⟩ } }) = true := by decide

/-- R119: when TRANSMIT_TEXT "Hi" completes, its first byte may already stand in `tx_out`. -/
theorem test_engine_moves_at_completion : leads (fun t => t.txOut = [0x48] ∧ t.txq = [0x69] ∧ t.fault = none)
    (step ({ ready [] [] with draws := { Draws.unlisted with fifoFull := ⟨[false, false], 0⟩, engineMoves := ⟨[1], 0⟩ }
      }.present ⟨0x8_00000002_00000000#68, [0x48, 0x69]⟩)) = true := by decide

/-- V7.7, V7.10. -/
theorem test_not_accepted :
    leads (fun t => t.trace = [] ∧ t.port.length = 1) (step { State.reset.withFetchWord 72 0 with halted := true })
      = true ∧
    leads (fun t => t.trace = [] ∧ t.port.length = 1)
      (step { State.reset.withFetchWord 72 0 with fault := some .uartNotInitialized }) = true := by decide

/-- The assembler text of R80 with names, a comment and a quoted text gives the commands of P1. -/
theorem test_assemble : assemble Board.cfgA
      ["set_function   14, Alt0           ; the pin of P1", "", "reg_read PUD[0]", "transmit_text \"Hi\"",
        "set_pull_up_down 31, PullUp", "halt"] =
    some [.setFunction 14 4, .regRead 0x3F200094, .transmitText [0x48, 0x69], .setPullUpDown 31 2, .halt] := by decide

/-- The command words of program P1. -/
theorem test_bringUp : (bringUp Board.cfgA 14 15 .alt0 115200 [0x48, 0x69]).map encode =
    [⟨0x2_0000000E_00000000#68, []⟩, ⟨0x3_0000000E_00000004#68, []⟩, ⟨0x2_0000000F_00000000#68, []⟩,
      ⟨0x3_0000000F_00000004#68, []⟩, ⟨0x5_3F201000_00000000#68, []⟩, ⟨0x6_0001C200_00000000#68, []⟩,
      ⟨0x8_00000002_00000000#68, [0x48, 0x69]⟩, ⟨0x9_00000000_00000000#68, []⟩] := by decide

/-! ### Witnesses: concrete states and operands that meet the hypotheses of each statement of Obligations.lean -/

theorem test_meets_DecodeOfEncode :
    (Instr.transmitText []).wf = true ∧ (Instr.setFunction 0xFFFFFFFF 7).wf = true ∧ (Instr.setPullUpDown 53 3).wf = true := by
  decide

/-- Each way of being illegal, and a state that takes such a command. -/
theorem test_meets_IllegalCommandsFault :
    (decode ⟨0xA_00000000_00000000#68, []⟩ = .error .noSuchOperation ∧ 0x9#4 < 0xA#4) ∧
    (decode ⟨0x3_00000036_00000008#68, []⟩ = .error .mustBeZero ∧ (0x8 : Word) >>> 3 ≠ 0 ∧ (0x7 : Word) >>> 3 = 0) ∧
    (State.reset.present ⟨0xA_00000000_00000000#68, []⟩).cfg.WfMap ∧
    (State.reset.present ⟨0xA_00000000_00000000#68, []⟩).accepts = true ∧
    (State.reset.present ⟨0xA_00000000_00000000#68, []⟩).port = [⟨0xA_00000000_00000000#68, []⟩] := by decide

theorem test_meets_CodeTablesAreBijections :
    PullVariant.ofCode 0b11 = none ∧ PullVariant.ofCode 0b10 = some .pullUp := by decide

theorem test_meets_TransmitTextIsRepeatedTransmit : (ready [false, true] []).NoFault ∧ (ready [false, true] []).Idle := by
  decide

/-- The example configuration, and the two ends of the range of PUD_OFF that the statement names. -/
theorem test_meets_AddressMapIsOneToOne :
    Board.cfgA.WfMap ∧ (⟨.pfe, 0x18, 16⟩ : Board).WfMap ∧ (⟨.pfe, 0xF64, 16⟩ : Board).WfMap ∧ ¬ misplaced.cfg.WfMap := by
  decide

theorem test_meets_MemWriteThenRead : Reg.pudclk 0 ≠ Reg.pud 0 := by decide

/-- Pins 0, 9, 10 and 53 with their function-select registers. -/
theorem test_meets_LaunchState :
    (0 ≤ 53 ∧ (0 : Fin 6).val = 0 / 10) ∧ (9 ≤ 53 ∧ (0 : Fin 6).val = 9 / 10) ∧
    (10 ≤ 53 ∧ (1 : Fin 6).val = 10 / 10) ∧ (53 ≤ 53 ∧ (5 : Fin 6).val = 53 / 10) := by decide

theorem test_meets_LaunchPremisesHold : (⟨.pfe, 0x94, 1⟩ : Board).WfMap := by decide

theorem test_meets_StepRunsTheDecodedCommand :
    let s := (ready [] []).withFetchWord 72 0x9_00000000_00000000
    s.cfg.WfMap ∧ s.NoFault ∧ s.NotHalted ∧ s.Idle ∧ s.port = [⟨0x9_00000000_00000000#68, []⟩] ∧
      decode ⟨0x9_00000000_00000000#68, []⟩ = .ok .halt := by decide

/-- Each of the four reasons for which no command is performed. -/
theorem test_meets_NoCommandUnlessAccepting :
    State.reset.cfg.WfMap ∧ { State.reset with halted := true }.halted = true ∧
    { State.reset with fault := some .uartNotInitialized }.fault ≠ none ∧
    { State.reset with upc := .busy 3 1 }.upc ≠ .idle ∧ State.reset.port = [] := by decide

/-- The last two parts: a queue that the bytes of TRANSMIT_TEXT or TRANSMIT fill to FIFO_DEPTH. -/
theorem test_meets_EngineMovesBytesInOrder :
    (start []).uart = .uninitialized ∧ (ready [] []).txq = [] ∧
    (let s := (ready [false, false] (List.replicate 14 0)).present ⟨0x8_00000002_00000000#68, [0x48, 0x69]⟩
    s.cfg.WfMap ∧ s.NoFault ∧ s.NotHalted ∧ s.Idle ∧ s.UartInit ∧
      s.port = [⟨0x8_00000002_00000000#68, [0x48, 0x69]⟩] ∧
      decode ⟨0x8_00000002_00000000#68, [0x48, 0x69]⟩ = .ok (.transmitText [0x48, 0x69]) ∧
      s.NoOverflowFor [0x48#8, 0x69#8].length ∧ s.txq.length + [0x48#8, 0x69#8].length ≤ s.cfg.fifoDepth) ∧
    let s := (ready [false] (List.replicate 15 0)).present ⟨0x7_00000048_00000000#68, []⟩
    s.cfg.WfMap ∧ s.NoFault ∧ s.NotHalted ∧ s.Idle ∧ s.UartInit ∧ s.port = [⟨0x7_00000048_00000000#68, []⟩] ∧
      decode ⟨0x7_00000048_00000000#68, []⟩ = .ok (.transmit 0x48) ∧ s.NoOverflowFor [0x48#8].length ∧
      s.txq.length + [0x48#8].length ≤ s.cfg.fifoDepth := by
  unfold State.NoOverflowFor; decide

theorem test_meets_StepAnswersUnlessRefused : State.reset.cfg.WfMap ∧ ¬ misplaced.cfg.WfMap := by decide

theorem test_meets_HaltedIsTerminal :
    (∃ t, exec .halt State.reset = .next t) ∧
    { State.reset with halted := true }.halted = true ∧ ∃ t, step { State.reset with halted := true } = .next t :=
  ⟨⟨_, rfl⟩, rfl, _, rfl⟩

theorem test_meets_FaultIsFinal :
    { State.reset with fault := some (.invalidBaud 0) }.fault ≠ none ∧
    ∃ t, step { State.reset with fault := some (.invalidBaud 0) } = .next t :=
  ⟨by decide, _, rfl⟩

theorem test_meets_FaultingCommandsArePrecise :
    State.reset.NoFault ∧ (∃ t, exec (.setFunction 54 0) State.reset = .next t ∧ t.fault ≠ none) ∧
    ∀ text, Instr.setFunction 54 0 ≠ .transmitText text :=
  ⟨rfl, ⟨_, rfl, by decide⟩, nofun⟩

theorem test_meets_RegReadOfARegister : State.reset.cfg.WfMap := by decide

theorem test_meets_RegReadOfTheDataRegister : (ready [] []).cfg.WfMap := by decide

/-- Below the first register, between registers, above the last, and a misaligned one (V6.3, V6.4, V6.14). -/
theorem test_meets_UnbackedAddressFaults :
    (∀ l, Board.cfgA.addr l ≠ 0x3F1FFFFC) ∧ (∀ l, Board.cfgA.addr l ≠ 0x3F200018) ∧
    (∀ l, Board.cfgA.addr l ≠ 0x3F201034) ∧ (∀ l, Board.cfgA.addr l ≠ 0x40000000) ∧
    State.reset.cfg.WfMap ∧ (0x3F200002 : Word).toNat % 4 ≠ 0 :=
  ⟨Board.locate_eq_none.mp (by decide), Board.locate_eq_none.mp (by decide), Board.locate_eq_none.mp (by decide),
    Board.locate_eq_none.mp (by decide), by decide, by decide⟩

/-- The first and the last pin of FSEL[0] and FSEL[5]. -/
theorem test_meets_RegWriteOfFunctionSelect :
    State.reset.cfg.WfMap ∧ (9 ≤ 53 ∧ 9 / 10 = (0 : Fin 6).val) ∧ (50 ≤ 53 ∧ 50 / 10 = (5 : Fin 6).val) ∧
      (53 ≤ 53 ∧ 53 / 10 = (5 : Fin 6).val) := by decide

theorem test_meets_RegWriteOfPullRegisters :
    State.reset.cfg.WfMap ∧ (Reg.pud 0 = .pud 0 ∨ Reg.pud 0 = .pudclk 0) ∧
      (Reg.pudclk 1 = .pud 1 ∨ Reg.pudclk 1 = .pudclk 1) := by decide

/-- A write of IBRD with bytes queued, and one of CR with an empty queue and with a byte queued. -/
theorem test_meets_RegWriteOfUartRegisters :
    (ready [] [0x48]).cfg.WfMap ∧ (Reg.ibrd ≠ .cr ∨ (ready [] [0x48]).txq = []) ∧
      (Reg.cr ≠ .cr ∨ (ready [] []).txq = []) ∧ ¬ (Reg.cr ≠ .cr ∨ (ready [] [0x48]).txq = []) := by decide

/-- The three cases, and a queue one byte short of FIFO_DEPTH beside a full one. -/
theorem test_meets_RegWriteOfTheDataRegister :
    (start []).cfg.WfMap ∧ (start []).UartUninit ∧
    (ready [true] []).UartInit ∧ (ready [true] []).fifoIsFull = true ∧
    (ready [false] []).UartInit ∧ (ready [false] []).fifoIsFull = false ∧
    (ready [false] (List.replicate 15 0)).txq.length < Board.cfgA.fifoDepth ∧
    ¬ (ready [false] (List.replicate 16 0)).txq.length < Board.cfgA.fifoDepth := by decide

theorem test_meets_AccessorFrame :
    (∃ t, exec (.regRead 0x3F200000) State.reset = .next t) ∧
    (∃ t, exec (.regWrite 0x3F200000 7) State.reset = .next t) ∧
    Board.cfgA.addr (.reg (.fsel 1)) ≠ 0x3F200000 ∧ Board.cfgA.addr .dr ≠ 0x3F200000 ∧
    (∀ k : Fin 2, Board.cfgA.addr (.reg (.pud k)) ≠ 0x3F200000 ∧ Board.cfgA.addr (.reg (.pudclk k)) ≠ 0x3F200000) ∧
    ∀ r ∈ [Reg.ibrd, .fbrd, .lcrh, .cr], Board.cfgA.addr (.reg r) ≠ 0x3F200000 :=
  ⟨⟨_, rfl⟩, ⟨_, rfl⟩, by decide, by decide, by decide, by decide⟩

/-- The last valid pin and the first invalid one; a `b` field with a bit above the code. -/
theorem test_meets_SetFunctionReadsModifiesWrites :
    ((0 : Word).toNat ≤ 53 ∧ (0 : Fin 6).val = (0 : Word).toNat / 10) ∧
    ((53 : Word).toNat ≤ 53 ∧ (5 : Fin 6).val = (53 : Word).toNat / 10) ∧ 53 < (54 : Word).toNat ∧
    (8 : Word) >>> 3 ≠ 0 := by decide

/-- Bits on both sides of the field of pin 10, and the pins of the register's ends. -/
theorem test_meets_SetFunctionPreservesOtherBits :
    (10 : Word).toNat ≤ 53 ∧ (1 : Fin 6).val = (10 : Word).toNat / 10 ∧
    (∃ t, exec (.setFunction 10 4) State.reset = .next t) ∧ (10 : Word).toNat % 10 * 3 + 3 ≤ 3 ∧
    (26 < (19 : Word).toNat % 10 * 3 ∧ (19 : Word).toNat % 10 * 3 + 3 ≤ 30) ∧ Reg.fsel 0 ≠ .fsel 1 :=
  ⟨by decide, by decide, ⟨_, rfl⟩, by decide, by decide, by decide⟩

theorem test_meets_SetFunctionIsIdempotent :
    (53 : Word).toNat ≤ 53 ∧ (5 : Fin 6).val = (53 : Word).toNat / 10 ∧
    ∃ t u, exec (.setFunction 53 1) State.reset = .next t ∧ exec (.setFunction 53 1) t = .next u :=
  ⟨by decide, by decide, _, _, rfl, rfl⟩

/-- Pins 31, 32 and 53 with their chains, every code that names a variant, the invalid pin, and the bit above a code. -/
theorem test_meets_SetPullPerformsTheHandshake :
    ((31 : Word).toNat ≤ 53 ∧ (0 : Fin 2).val = (31 : Word).toNat / 32) ∧
    ((32 : Word).toNat ≤ 53 ∧ (1 : Fin 2).val = (32 : Word).toNat / 32) ∧
    ((53 : Word).toNat ≤ 53 ∧ (1 : Fin 2).val = (53 : Word).toNat / 32) ∧
    PullVariant.ofCode 0 = some .none ∧ PullVariant.ofCode 2 = some .pullUp ∧
    53 < (54 : Word).toNat ∧ (4 : Word) >>> 2 ≠ 0 := by decide

theorem test_meets_LatchReachesOnlyThatPin :
    (53 : Word).toNat ≤ 53 ∧ (∃ t, exec (.setPullUpDown 53 PullVariant.pullDown.code) State.reset = .next t) ∧
      (53 : Fin 54).val = (53 : Word).toNat ∧ (0 : Fin 54).val ≠ (53 : Word).toNat :=
  ⟨by decide, ⟨_, rfl⟩, by decide, by decide⟩

/-- For pin 31 the other chain is chain 1, for pin 32 it is chain 0. -/
theorem test_meets_PinPropertiesAreIndependent :
    (∃ t, exec (.setFunction 31 1) State.reset = .next t) ∧ (∃ t, exec (.setPullUpDown 31 1) State.reset = .next t) ∧
      (1 : Fin 2).val ≠ (31 : Word).toNat / 32 ∧ (0 : Fin 2).val ≠ (32 : Word).toNat / 32 :=
  ⟨⟨_, rfl⟩, ⟨_, rfl⟩, by decide, by decide⟩

theorem test_meets_PinCommandsFrame :
    (∃ t, exec (.setFunction 9 1) State.reset = .next t) ∧ (∃ t, exec (.setPullUpDown 9 1) State.reset = .next t) ∧
      (∃ t, exec (.pinConstruct 9) State.reset = .next t) ∧ (∀ code, Instr.pinConstruct 9 ≠ .setFunction 9 code) ∧
      (∀ code, Instr.setFunction 9 1 ≠ .setPullUpDown 9 code) ∧ (1 : Fin 6).val ≠ (9 : Word).toNat / 10 :=
  ⟨⟨_, rfl⟩, ⟨_, rfl⟩, ⟨_, rfl⟩, nofun, nofun, by decide⟩

theorem test_meets_UartConstructChecksTheBase :
    (0x3F201000 : Word).toNat = State.reset.cfg.uartBase ∧ (0xFE201000 : Word).toNat ≠ State.reset.cfg.uartBase := by
  decide

/-- The lowest and the highest accepted baud rate (V4.16, V4.17). -/
theorem test_meets_InitializePerformsTheSequence :
    ((1 : Word).toNat ≠ 0 ∧ (1 : Word).toNat < 2 ^ 28) ∧
    ((268435455 : Word).toNat ≠ 0 ∧ (268435455 : Word).toNat < 2 ^ 28) ∧ (ready [] []).txq = [] := by decide

theorem test_meets_InitializeDisablesFirstAndReadsNothingBack :
    baudValid 115200 = true ∧ (∃ t, exec (.uartInitialize 115200) State.reset = .next t) ∧ State.reset.cfg.WfMap :=
  ⟨by decide, ⟨_, rfl⟩, by decide⟩

/-- V4.24, V4.25. -/
theorem test_meets_InvalidBaudFaults : (0 : Word).toNat = 0 ∧ 2 ^ 28 ≤ (268435456 : Word).toNat := by decide

theorem test_meets_DivisorFitsAWord : baudValid 1 = true ∧ baudValid 268435455 = true := by decide

theorem test_meets_LineControlIsMerged :
    baudValid 268435455 = true ∧ ∃ t, exec (.uartInitialize 268435455) State.reset = .next t :=
  ⟨by decide, _, rfl⟩

/-- The three cases, a bit above the byte, and a queue with room for one more byte. -/
theorem test_meets_TransmitWritesTheByte :
    (0x100 : Word) >>> 8 ≠ 0 ∧ (start [true]).UartUninit ∧
    (ready [true] []).UartInit ∧ (ready [true] []).fifoIsFull = true ∧
    (ready [false] []).UartInit ∧ (ready [false] []).fifoIsFull = false ∧
    (ready [false] (List.replicate 15 0)).txq.length < Board.cfgA.fifoDepth := by decide

theorem test_meets_TransmitTextWritesEveryByte :
    (ready [false, false] []).UartInit ∧ (ready [false, false] []).NoOverflowFor 2 ∧
      (ready [false, false] []).txq.length + [0x48#8, 0x69#8].length ≤ Board.cfgA.fifoDepth :=
  ⟨rfl, by unfold State.NoOverflowFor; decide, by decide⟩

/-- Two bytes written, the third meets a full FIFO (V5.11). -/
theorem test_meets_TransmitTextStopsAtTheFaultingByte :
    (start []).UartUninit ∧ (ready [false, false, true] []).UartInit ∧ (ready [false, false, true] []).NoOverflowFor 2 ∧
      { ready [false, false, true] [] with
        draws := (ready [false, false, true] []).draws.afterFull 2 }.fifoIsFull = true :=
  ⟨rfl, rfl, by unfold State.NoOverflowFor; decide, rfl⟩

theorem test_meets_UartCommandsFrame :
    (∃ t, exec (.uartConstruct 0) State.reset = .next t) ∧ (∃ t, exec (.uartInitialize 9600) State.reset = .next t) ∧
      (∃ t, exec (.transmit 1) (ready [false] []) = .next t) ∧
      (∃ t, exec (.transmitText [1]) (ready [false] []) = .next t) ∧
      (∀ baud, Instr.transmit 1 ≠ .uartInitialize baud) ∧ (∀ byte, Instr.uartInitialize 9600 ≠ .transmit byte) ∧
      ∀ text, Instr.uartInitialize 9600 ≠ .transmitText text :=
  ⟨⟨_, rfl⟩, ⟨_, rfl⟩, ⟨_, rfl⟩, ⟨_, rfl⟩, nofun, nofun, nofun⟩

theorem test_meets_TraceIsOnlyAppendedTo :
    ∃ t, step (State.reset.withFetchWord 72 0x4_0000001F_00000002) = .next t ∧ t.trace.length = 6 :=
  ⟨_, rfl, rfl⟩

theorem test_meets_TraceShapesOfCommands :
    State.reset.NoFault ∧ ∃ t, exec (.setFunction 53 2) State.reset = .next t ∧ t.NoFault :=
  ⟨rfl, _, rfl, by decide⟩

theorem test_meets_TraceOfACommandStandsAlone : ∃ t, exec (.setFunction 14 4) State.reset = .next t ∧ t.trace ≠ [] :=
  ⟨_, rfl, by decide⟩

theorem test_meets_WorkingRegistersInfluenceNothing : ∃ t, exec (.uartInitialize 1) State.reset = .next t := ⟨_, rfl⟩

/-- Both directions of a change of `uart_state`. -/
theorem test_meets_OnlyTheseWriteUartState :
    (∃ t, exec (.uartInitialize 9600) State.reset = .next t ∧ t.uart ≠ State.reset.uart) ∧
    ∃ t, exec (.regWrite 0x3F201030 0) (ready [] []) = .next t ∧ t.uart ≠ (ready [] []).uart :=
  ⟨⟨_, rfl, by decide⟩, _, rfl, by decide⟩

/-- A latch changed by the handshake and by a raw write, a function-select register changed by SET_FUNCTION. -/
theorem test_meets_OnlyTheseWritePinState :
    (∃ t, exec (.setPullUpDown 53 2) State.reset = .next t ∧ t.pull[53] ≠ State.reset.pull[53]) ∧
    (∃ t, exec (.regWrite 0x3F20012C 0) { State.reset with pull := Vector.replicate 54 (.latched .none) } = .next t ∧
      t.pull[32] ≠ .latched .none) ∧
    ∃ t, exec (.setFunction 9 1) State.reset = .next t ∧ t.regs.fsel[0] ≠ State.reset.regs.fsel[0] :=
  ⟨⟨_, rfl, by decide⟩, ⟨_, rfl, by decide⟩, _, rfl, by decide⟩

theorem test_meets_ConfigurationIsFixed :
    (∃ t, step State.reset = .next t) ∧ (∃ t, exec (.transmit 1) (ready [false] []) = .next t) ∧
      ∀ addr, Instr.transmit 1 ≠ .regRead addr :=
  ⟨⟨_, rfl⟩, ⟨_, rfl⟩, nofun⟩

theorem test_meets_StepsKeepIdle : State.reset.Idle ∧ ∃ t, step State.reset = .next t := ⟨rfl, _, rfl⟩

/-- The premise holds of an Initialized transmitter, and a step follows. -/
theorem test_meets_StepsKeepTheTransmitterProgrammed :
    (ready [] []).UartInit ∧ (ready [] []).Programmed ∧ ∃ t, step (ready [] []) = .next t :=
  ⟨rfl, fun _ => ⟨rfl, by decide, 115200, by decide, rfl, rfl⟩, _, rfl⟩

/-- A queue that holds FIFO_DEPTH bytes and gains another by a TRANSMIT, and a FIFO that holds none. -/
theorem test_meets_StepsKeepTheQueueBounded :
    (let s := (ready [false] (List.replicate 16 0)).present ⟨0x7_00000041_00000000#68, []⟩
     s.QueueBounded ∧ ∃ t, step s = .next t) ∧
    let s := { ready [false] [] with cfg := noFifo }.present ⟨0x7_00000041_00000000#68, []⟩
    s.QueueBounded ∧ ∃ t, step s = .next t :=
  ⟨⟨by decide, _, rfl⟩, by decide, _, rfl⟩

/-- An INITIALIZE, which writes CR, on an empty queue. -/
theorem test_meets_StepsKeepTheBytesInOrder :
    let s := State.reset.withFetchWord 72 0x6_0001C200_00000000
    s.BytesInOrder ∧ s.TxEmpty ∧ ∃ t, step s = .next t :=
  ⟨rfl, rfl, _, rfl⟩

theorem test_meets_StepsKeepTheTracePossible :
    let s := { State.reset with trace := [.wr 0x3F201030 0, .dly 150] }
    s.TracePossible ∧ ∃ t, step s = .next t :=
  ⟨by decide, _, rfl⟩

/-- One byte queued, which the first step moves to the output; afterwards nothing happens. -/
def drain : Nat → State
  | 0 => { ready [] [0x48] with draws := { Draws.unlisted with engineMoves := ⟨[1], 0⟩ } }
  | _ + 1 => { ready [] [] with txOut := [0x48], draws := Draws.unlisted.useMoves }

theorem test_meets_FairRunsDrainTheQueue :
    IsRun drain ∧ WeaklyFair drain ∧ (drain 0).port = [] ∧ (drain 0).UartInit ∧ (drain 0).regs.ibrd ≠ 0 := by
  refine ⟨?_, ?_, rfl, rfl, by decide⟩
  · intro k
    cases k with
    | zero => rfl
    | succ n => exact (rfl : step (drain 1) = .next (drain 2))
  · intro k h
    exact absurd rfl (h (k + 1) (Nat.le_succ k)).2.1

/-- Three states without the fault: in the run of the first every FIFO-full draw (there is none) answers "not full",
in that of the second one answers "full", and the third has its TRANSMIT still to come and the draw "not full". -/
theorem test_meets_NoOverflowMeansNoOverflowFault :
    ((∀ y, (ready [] [0x48]).fault ≠ some (.uartFifoOverflow y)) ∧ (ready [] [0x48]).NoOverflow) ∧
    (let s := (ready [true] []).present ⟨0x7_00000041_00000000#68, []⟩
     (∀ y, s.fault ≠ some (.uartFifoOverflow y)) ∧ s.fullDrawsNext = 1 ∧ ¬ s.NoOverflow) ∧
    let s := (ready [false] []).present ⟨0x7_00000041_00000000#68, []⟩
    (∀ y, s.fault ≠ some (.uartFifoOverflow y)) ∧ s.fullDrawsNext = 1 ∧ s.NoOverflow := by
  refine ⟨⟨nofun, State.noOverflow_of_port_nil rfl⟩, ⟨nofun, by decide, fun h => ?_⟩, nofun, by decide, ?_⟩
  · exact absurd (h _ .start 0 (by decide)) (by decide)
  · refine State.noOverflow_of_step (by unfold State.NoOverflowFor; decide) fun t h => ?_
    cases h
    exact State.noOverflow_of_port_nil rfl

end Sys2Proof.Tests
end

section
/-! PROOF. The statements of 00_scope.md: the address map under WF_MAP (R5, R47), which steps answer (R5, R85), and the
divisor of the UART clock (R11, 42 R108). -/

namespace Sys2Proof

/-- Both base addresses of R4 are aligned, and neither is above that of PFE. -/
theorem Board.gpioBase_aligned_and_bounded (c : Board) : c.gpioBase % 4 = 0 ∧ c.gpioBase ≤ 0xFE200000 := by
  unfold Board.gpioBase
  cases c.platform <;> decide

/-- The bases and every offset but PUD_OFF are multiples of 4, so alignment of the map rests on PUD_OFF alone. -/
theorem Board.addrNat_aligned {c : Board} (h : c.pudOff % 4 = 0) (l : Location) : c.addrNat l % 4 = 0 := by
  obtain ⟨hbase, -⟩ := c.gpioBase_aligned_and_bounded
  rcases l with (n | k | k | _ | _ | _ | _) | _ <;>
    simp only [Board.addrNat, Board.uartBase, registerStride, clkOff] <;> omega

/-- Under WF_MAP the look-up is the inverse of the address map (R46, R51). -/
theorem Board.locate_eq_some_iff {c : Board} (h : c.WfMap) {l : Location} {a : Word} :
    c.locate a = some l ↔ a = c.addr l := by
  constructor
  · intro hl
    exact (Board.addr_of_locate hl).symm
  · rintro rfl
    exact Board.locate_addr h l

/-- When the pull registers lie between the last FSEL register and UART_BASE, R47 lists the addresses in ascending
order. -/
theorem Board.addrNat_ascending {c : Board} (hlow : 0x18 ≤ c.pudOff) (hhigh : c.pudOff ≤ 0xF64) :
    (Location.all.map c.addrNat).IsChain (· < ·) := by
  simp only [Location.all, List.map_cons, List.map_nil, List.isChain_cons_cons, List.isChain_singleton, Board.addrNat,
    Board.uartBase, registerStride, clkOff, and_true]
  omega

/-- PUDCLK[1] stays below UART_BASE, so the highest address is that of CR. -/
theorem Board.addrNat_le_cr {c : Board} (hhigh : c.pudOff ≤ 0xF64) (l : Location) :
    c.addrNat l ≤ c.addrNat (.reg .cr) := by
  rcases l with (n | k | k | _ | _ | _ | _) | _ <;>
    simp only [Board.addrNat, Board.uartBase, registerStride, clkOff] <;> omega

/-- Every aligned PUD_OFF from the end of the FSEL bank to the last that keeps PUDCLK[1] below UART_BASE is admitted. -/
theorem Board.wfMap_of_pudOff {c : Board} (hlow : 0x18 ≤ c.pudOff) (hhigh : c.pudOff ≤ 0xF64)
    (haligned : c.pudOff % 4 = 0) : c.WfMap := by
  have hlt : (Location.all.map c.addrNat).Pairwise (· < ·) :=
    (Board.addrNat_ascending hlow hhigh).pairwise
  have hcr : c.addrNat (.reg .cr) < 2 ^ 32 := by
    obtain ⟨-, hbase⟩ := c.gpioBase_aligned_and_bounded
    simp only [Board.addrNat, Board.uartBase]
    omega
  exact ⟨haligned, hlt.nodup, fun l _ => (Board.addrNat_le_cr hhigh l).trans_lt hcr⟩

end Sys2Proof

namespace Sys2Proof.Machine

/-- A configuration that violates WF_MAP is refused (R5). -/
theorem step_refused {s : State} (h : ¬ s.cfg.WfMap) : step s = .refused .configurationNotAdmitted := if_neg h

/-- Under WF_MAP a step that performs no command answers what `fetch` left, and one that performs a command answers
because every command does (`exec_next`). -/
theorem step_next {s : State} (h : s.cfg.WfMap) : ∃ t, step s = .next t := by
  simp only [step, if_pos h]
  split
  next i t _ =>
    obtain ⟨u, hu⟩ := exec_next i t
    exact ⟨u.engine, by rw [hu, thenEngine_next]⟩
  next t _ => exact ⟨t, rfl⟩

/-- The quotient is at most UART_CLK, so the IBRD word loses no bit of it, whatever the baud rate (R11). -/
theorem ibrdWord_toNat (baud : Word) : (ibrdWord baud).toNat = uartClk / (16 * baud.toNat) := by
  have hle : uartClk / (16 * baud.toNat) ≤ uartClk := Nat.div_le_self _ _
  exact Nat.mod_eq_of_lt (hle.trans_lt (by decide))

end Sys2Proof.Machine

namespace Sys2Proof

/-- Settles O7: the look-up inverts an injective map, WF_MAP excludes wrap-around, and an admitted PUD_OFF puts the
fifteen addresses in ascending order. -/
theorem addressMapIsOneToOne : Obligations.AddressMapIsOneToOne := by
  refine ⟨fun c h l a => Board.locate_eq_some_iff h, fun c h l => ?_, fun c => Board.wfMap_of_pudOff⟩
  have hnat : (c.addr l).toNat = c.addrNat l := Board.addr_toNat h l
  exact ⟨hnat, hnat ▸ Board.addrNat_aligned h.1 l⟩

/-- Settles O15: every command answers a next state, so `step` refuses exactly where WF_MAP fails. -/
theorem stepAnswersUnlessRefused : Obligations.StepAnswersUnlessRefused :=
  fun _ => ⟨Machine.step_next, Machine.step_refused⟩

/-- Settles O39: below 2^28 sixteen times the baud rate is a word, and a rate that is not 0 is a divisor. -/
theorem divisorFitsAWord : Obligations.DivisorFitsAWord := by
  refine ⟨fun baud hvalid => ?_, by decide, by decide⟩
  obtain ⟨hpos, hlt⟩ := Machine.baudValid_iff.mp hvalid
  exact ⟨by omega, Machine.ibrdWord_toNat baud, Nat.mod_lt _ (by omega)⟩

end Sys2Proof
end

section
/-! PROOF. What a command can do, said once for all ten commands, and what follows for every step: the layer under
the statements of 10_state.md. -/

namespace Sys2Proof.Machine

/-! ### The operations whose effect depends on the state -/

/-- A write of CR changes at most the queue and the draws (42 R113). -/
theorem State.disturbQueue_eq (s : State) :
    s.disturbQueue = { s with txq := s.disturbQueue.txq, draws := s.disturbQueue.draws } := by
  rcases s.disturbQueue_cases with ⟨-, h⟩ | ⟨-, h⟩ <;> rw [h]

theorem State.disturbQueue_pull (s : State) : s.disturbQueue.pull = s.pull := by rw [s.disturbQueue_eq]

/-- What a write of CR leaves queued is no longer than what was queued (42 R113). -/
theorem State.disturbQueue_length_le (s : State) : s.disturbQueue.txq.length ≤ s.txq.length := by
  rcases s.disturbQueue_cases with ⟨-, h⟩ | ⟨-, h⟩ <;> rw [h]
  exact List.length_take_le _ _

/-- Rules R88 and R89 (a) touch the pull latches, `uart_state`, the queue and the draws only. -/
theorem State.rawWriteEffect_eq (r : Reg) (s : State) :
    s.rawWriteEffect r =
      { s with
        uart := (s.rawWriteEffect r).uart
        pull := (s.rawWriteEffect r).pull
        txq := (s.rawWriteEffect r).txq
        draws := (s.rawWriteEffect r).draws } := by
  cases r with
  | cr => simp only [State.rawWriteEffect, State.setUart]; rw [s.disturbQueue_eq]
  | _ => rfl

section
variable (r : Reg) (s : State)

@[simp] theorem State.rawWriteEffect_cfg : (s.rawWriteEffect r).cfg = s.cfg := by rw [s.rawWriteEffect_eq]
@[simp] theorem State.rawWriteEffect_regs : (s.rawWriteEffect r).regs = s.regs := by rw [s.rawWriteEffect_eq]
@[simp] theorem State.rawWriteEffect_halted : (s.rawWriteEffect r).halted = s.halted := by rw [s.rawWriteEffect_eq]
@[simp] theorem State.rawWriteEffect_fault : (s.rawWriteEffect r).fault = s.fault := by rw [s.rawWriteEffect_eq]
@[simp] theorem State.rawWriteEffect_txOut : (s.rawWriteEffect r).txOut = s.txOut := by rw [s.rawWriteEffect_eq]
@[simp] theorem State.rawWriteEffect_trace : (s.rawWriteEffect r).trace = s.trace := by rw [s.rawWriteEffect_eq]
@[simp] theorem State.rawWriteEffect_rdata : (s.rawWriteEffect r).rdata = s.rdata := by rw [s.rawWriteEffect_eq]

end

/-- No raw write makes the queue longer. -/
theorem State.rawWriteEffect_length_le (r : Reg) (s : State) : (s.rawWriteEffect r).txq.length ≤ s.txq.length := by
  cases r with
  | cr => exact s.disturbQueue_length_le
  | _ => exact le_rfl

section
variable (l : Location) (s : State)

@[simp] theorem State.memRead_cfg : (s.memRead l).2.cfg = s.cfg := by cases l <;> rfl
@[simp] theorem State.memRead_regs : (s.memRead l).2.regs = s.regs := by cases l <;> rfl
@[simp] theorem State.memRead_uart : (s.memRead l).2.uart = s.uart := by cases l <;> rfl
@[simp] theorem State.memRead_halted : (s.memRead l).2.halted = s.halted := by cases l <;> rfl
@[simp] theorem State.memRead_fault : (s.memRead l).2.fault = s.fault := by cases l <;> rfl
@[simp] theorem State.memRead_pull : (s.memRead l).2.pull = s.pull := by cases l <;> rfl
@[simp] theorem State.memRead_txq : (s.memRead l).2.txq = s.txq := by cases l <;> rfl
@[simp] theorem State.memRead_txOut : (s.memRead l).2.txOut = s.txOut := by cases l <;> rfl
@[simp] theorem State.memRead_trace :
    (s.memRead l).2.trace = s.trace ++ [.rd (s.cfg.addr l) (s.memRead l).1] := by cases l <;> rfl

end

/-- A sequence of bytes reaches the trace, the output, the queue, the draws, `upc` and the fault mark only. -/
theorem State.transmitBytes_eq (text : List Byte) (s : State) :
    s.transmitBytes text =
      { s with
        trace := (s.transmitBytes text).trace
        txOut := (s.transmitBytes text).txOut
        txq := (s.transmitBytes text).txq
        draws := (s.transmitBytes text).draws
        upc := (s.transmitBytes text).upc
        fault := (s.transmitBytes text).fault } := by
  obtain ⟨pre, -, -, -, -, h, -⟩ := s.transmitBytes_spec text
  rw [h]

section
variable (text : List Byte) (s : State)

@[simp] theorem State.transmitBytes_cfg : (s.transmitBytes text).cfg = s.cfg := by rw [s.transmitBytes_eq]
@[simp] theorem State.transmitBytes_regs : (s.transmitBytes text).regs = s.regs := by rw [s.transmitBytes_eq]
@[simp] theorem State.transmitBytes_uart : (s.transmitBytes text).uart = s.uart := by rw [s.transmitBytes_eq]
@[simp] theorem State.transmitBytes_halted : (s.transmitBytes text).halted = s.halted := by rw [s.transmitBytes_eq]
@[simp] theorem State.transmitBytes_pull : (s.transmitBytes text).pull = s.pull := by rw [s.transmitBytes_eq]
@[simp] theorem State.transmitBytes_rdata : (s.transmitBytes text).rdata = s.rdata := by rw [s.transmitBytes_eq]

end

/-- The DR writes of a text are traced after what the trace held. -/
theorem State.transmitBytes_trace_prefix (text : List Byte) (s : State) : s.trace <+: (s.transmitBytes text).trace := by
  obtain ⟨pre, -, -, h, -⟩ := s.transmitBytes_spec text
  exact ⟨_, h.symm⟩

/-- Each byte of a text either finds room, and what it pushes out joins the output, or ends the text. -/
theorem State.transmitBytes_txOut_prefix (text : List Byte) (s : State) :
    s.txOut <+: (s.transmitBytes text).txOut := by
  induction text generalizing s with
  | nil => exact List.prefix_rfl
  | cons y ys ih =>
    cases hf : s.drFault y with
    | some f => simp [State.transmitBytes, hf]
    | none =>
      have hwrite : s.txOut <+: (s.drWrite (drWord y)).txOut := by simp [State.drWrite_eq]
      simpa [State.transmitBytes, hf] using hwrite.trans (ih _)

/-! ### What a command can do -/

/-- The word a command submits to DR in a single DR write: that of TRANSMIT, and of a REG_WRITE to A_DR (40 R89 (b)). -/
def drWordOf (c : Board) : Instr → Option Word
  | .transmit y => some (drWord y)
  | .regWrite addr v => if c.locate addr = some .dr then some v else none
  | _ => none

/-- The ways a command can end, each with the condition under which it does: `exec_effect` ties it to `exec`. -/
inductive Effect (s : State) : Instr → State → Prop
  /-- A check of an operand failed. -/
  | rejected (i : Instr) (f : Fault) (hi : i ≠ .halt) (hw : s.cfg.WfMap → drWrites s.cfg i = 0)
      (hf : ∀ y, f ≠ .uartFifoOverflow y) : Effect s i (s.raise f)
  /-- PIN_CONSTRUCT, and UART_CONSTRUCT of the right base. -/
  | nothing (i : Instr) (hi : i ≠ .halt) (hw : drWrites s.cfg i = 0) : Effect s i s.complete
  | read (addr : Word) (l : Location) (hl : s.cfg.locate addr = some l) :
      Effect s (.regRead addr) ((s.memRead l).2.respond (s.memRead l).1).complete
  | regWritten (addr v : Word) (r : Reg) (hr : s.cfg.locate addr = some (.reg r)) :
      Effect s (.regWrite addr v) ((s.memWrite (.reg r) v).rawWriteEffect r).complete
  /-- A check of the single DR write failed. -/
  | drRejected (i : Instr) (v : Word) (f : Fault) (hv : drWordOf s.cfg i = some v)
      (hf : s.drFault (drByte v) = some f) : Effect s i (s.raise f)
  | drWritten (i : Instr) (v : Word) (hv : drWordOf s.cfg i = some v) (hf : s.drFault (drByte v) = none) :
      Effect s i (s.drWrite v).complete
  | text (bytes : List Byte) : Effect s (.transmitText bytes) (s.transmitBytes bytes).complete
  | setFunction (pin : Word) (code : BitVec 3) (hp : pin.toNat ≤ 53) :
      Effect s (.setFunction pin code) (s.setField pin.toNat code).complete
  | setPull (pin : Word) (v : PullVariant) (hp : pin.toNat ≤ 53) :
      Effect s (.setPullUpDown pin v.code) (s.pullHandshake pin.toNat v).complete
  | initialized (baud : Word) (hb : baudValid baud = true) :
      Effect s (.uartInitialize baud) (s.uartSequence baud).complete
  | halted : Effect s .halt { s with halted := true }.complete

/-- What SET_FUNCTION can do (41 R94). -/
theorem exec_setFunction_cases {pin : Word} {code : BitVec 3} {s t : State}
    (h : exec (.setFunction pin code) s = .next t) :
    (pin.toNat ≤ 53 ∧ t = (s.setField pin.toNat code).complete) ∨
      (53 < pin.toNat ∧ t = s.raise (.invalidPinIdentifier pin)) := by
  simp only [exec, execSetFunction] at h
  split at h <;> rename_i hp <;> cases h
  · exact .inl ⟨pinValid_iff.mp hp, rfl⟩
  · exact .inr ⟨pinValid_eq_false_iff.mp (Bool.not_eq_true _ ▸ hp), rfl⟩

/-- What SET_PULL_UP_DOWN can do (41 R98). -/
theorem exec_setPullUpDown_cases {pin : Word} {code : BitVec 2} {s t : State}
    (h : exec (.setPullUpDown pin code) s = .next t) :
    (∃ v : PullVariant, pin.toNat ≤ 53 ∧ code = v.code ∧ t = (s.pullHandshake pin.toNat v).complete) ∨
      t = s.raise (.reservedCode code) ∨ t = s.raise (.invalidPinIdentifier pin) := by
  simp only [exec, execSetPullUpDown] at h
  split at h
  next hp =>
    split at h
    next => exact .inr (.inl (Host.Outcome.next.inj h).symm)
    next v hv =>
      exact .inl ⟨v, pinValid_iff.mp hp, (PullVariant.code_of_ofCode hv).symm, (Host.Outcome.next.inj h).symm⟩
  next =>
    cases h
    exact .inr (.inr rfl)

/-- An address at which nothing is, is not that of DR. -/
theorem drWrites_of_locate_none {c : Board} {addr v : Word} (h : c.locate addr = none) :
    drWrites c (.regWrite addr v) = 0 :=
  if_neg fun e => Board.locate_eq_none.mp h .dr e.symm

/-- Every command that answers a next state ends in one of the ways of `Effect`. -/
theorem exec_effect {i : Instr} {s t : State} (h : exec i s = .next t) : Effect s i t := by
  cases i with
  | regRead addr =>
    simp only [exec, execRegRead] at h
    split at h <;> cases h
    next => exact .rejected _ _ nofun (fun _ => rfl) nofun
    next l hl => exact .read addr l hl
  | regWrite addr v =>
    simp only [exec, execRegWrite] at h
    split at h
    next hl =>
      cases h
      exact .rejected _ _ nofun (fun _ => drWrites_of_locate_none hl) nofun
    next hl =>
      have hv : drWordOf s.cfg (.regWrite addr v) = some v := if_pos hl
      split at h <;> cases h
      next f hf => exact .drRejected _ v f hv hf
      next hf => exact .drWritten _ v hv hf
    next r hl =>
      cases h
      exact .regWritten addr v r hl
  | pinConstruct pin =>
    cases h
    exact .nothing _ nofun rfl
  | setFunction pin code =>
    rcases exec_setFunction_cases h with ⟨hp, rfl⟩ | ⟨-, rfl⟩
    · exact .setFunction pin code hp
    · exact .rejected _ _ nofun (fun _ => rfl) nofun
  | setPullUpDown pin code =>
    rcases exec_setPullUpDown_cases h with ⟨v, hp, rfl, rfl⟩ | rfl | rfl
    · exact .setPull pin v hp
    · exact .rejected _ _ nofun (fun _ => rfl) nofun
    · exact .rejected _ _ nofun (fun _ => rfl) nofun
  | uartConstruct base =>
    simp only [exec, execUartConstruct] at h
    split at h <;> cases h
    · exact .nothing _ nofun rfl
    · exact .rejected _ _ nofun (fun _ => rfl) nofun
  | uartInitialize baud =>
    simp only [exec, execUartInitialize] at h
    split at h <;> cases h
    next hb => exact .initialized baud hb
    next => exact .rejected _ _ nofun (fun _ => rfl) nofun
  | transmit y =>
    simp only [exec, execTransmit] at h
    split at h <;> cases h
    next f hf => exact .drRejected _ (drWord y) f rfl (by simpa using hf)
    next hf => exact .drWritten _ (drWord y) rfl (by simpa using hf)
  | transmitText bytes =>
    cases h
    exact .text bytes
  | halt =>
    cases h
    exact .halted

/-! ### What every command leaves alone, and what it only adds to -/

/-- A state after a command: it is complete, under the same configuration, with the trace and the output grown. -/
structure Progressed (s t : State) : Prop where
  cfg : t.cfg = s.cfg
  upc : t.upc = .idle
  trace : s.trace <+: t.trace
  txOut : s.txOut <+: t.txOut

theorem exec_progressed {i : Instr} {s t : State} (h : exec i s = .next t) : Progressed s t := by
  cases exec_effect h with
  | rejected | nothing | drRejected | halted => exact ⟨rfl, rfl, List.prefix_rfl, List.prefix_rfl⟩
  | read | regWritten => constructor <;> simp
  | drWritten i v => constructor <;> simp [State.drWrite_eq]
  | text bytes =>
    exact ⟨s.transmitBytes_cfg bytes, rfl, s.transmitBytes_trace_prefix bytes, s.transmitBytes_txOut_prefix bytes⟩
  | setFunction pin code => constructor <;> simp [State.setField_eq]
  | setPull pin v => constructor <;> simp [State.pullHandshake_eq]
  | initialized baud => constructor <;> simp [State.uartSequence_eq]

/-- HALT sets `halted` and no other command writes it (R31). -/
theorem exec_halted_iff {i : Instr} {s t : State} (h : exec i s = .next t) :
    t.halted = true ↔ s.halted = true ∨ i = .halt := by
  cases exec_effect h with
  | rejected i f hi | nothing i hi => simp [hi]
  | drRejected i v f hv | drWritten i v hv =>
    have hi : i ≠ .halt := by rintro rfl; cases hv
    simp [hi, State.drWrite_eq]
  | read | regWritten | text => simp
  | setFunction => simp [State.setField_eq]
  | setPull => simp [State.pullHandshake_eq]
  | initialized => simp [State.uartSequence_eq]
  | halted => simp

/-- Only REG_READ drives the response field (30 R72). -/
theorem exec_rdata {i : Instr} {s t : State} (h : exec i s = .next t) (hi : ∀ addr, i ≠ .regRead addr) :
    t.rdata = s.rdata := by
  cases exec_effect h with
  | rejected | nothing | drRejected | halted => rfl
  | read addr => exact absurd rfl (hi addr)
  | regWritten | text => simp
  | drWritten => simp [State.drWrite_eq]
  | setFunction => simp [State.setField_eq]
  | setPull => simp [State.pullHandshake_eq]
  | initialized => simp [State.uartSequence_eq]

/-! ### What a step keeps -/

/-- An invariant of a step: kept by the engine, by taking a command off the port, by the fault of an illegal command,
and by every command. -/
theorem step_keeps {P : State → Prop} (engine : ∀ s, P s → P s.engine)
    (take : ∀ s c rest, P s → P ({ s with port := rest }.load c))
    (illegal : ∀ s f rest, P s → P ({ s with port := rest }.raise f))
    (command : ∀ i s t, exec i s = .next t → P s → P t) {s t : State} (h : step s = .next t) (hs : P s) : P t := by
  obtain ⟨-, ⟨rfl, -⟩ | ⟨c, rest, -, -, ⟨i, u, -, hx, rfl⟩ | ⟨e, -, rfl⟩⟩⟩ := step_cases h
  · exact engine s hs
  · exact engine u (command i _ u hx (take _ c rest (engine s hs)))
  · exact illegal _ _ rest (engine s hs)

/-- A block that accepts no command makes the engine's move only. -/
theorem step_of_not_accepts {s t : State} (ha : s.accepts = false) (h : step s = .next t) : t = s.engine := by
  obtain ⟨-, ⟨ht, -⟩ | ⟨c, rest, ha', -⟩⟩ := step_cases h
  · exact ht
  · simp [ha] at ha'

/-- The engine only appends to the output. -/
theorem State.engine_txOut_prefix (s : State) : s.txOut <+: s.engine.txOut := by
  rcases s.engine_cases with h | ⟨-, -, h⟩ <;> simp [h]

/-- The engine makes the queue no longer. -/
theorem State.engine_length_le (s : State) : s.engine.txq.length ≤ s.txq.length := by
  rcases s.engine_cases with h | ⟨-, -, h⟩ <;> simp [h]

theorem step_cfg {s t : State} (h : step s = .next t) : t.cfg = s.cfg :=
  step_keeps (P := fun u => u.cfg = s.cfg) (fun _ hu => by simpa using hu) (fun _ _ _ hu => hu) (fun _ _ _ hu => hu)
    (fun _ _ _ hx hu => (exec_progressed hx).cfg.trans hu) h rfl

theorem step_trace_prefix {s t : State} (h : step s = .next t) : s.trace <+: t.trace :=
  step_keeps (P := fun u => s.trace <+: u.trace) (fun _ hu => by simpa using hu) (fun _ _ _ hu => hu)
    (fun _ _ _ hu => hu) (fun _ _ _ hx hu => hu.trans (exec_progressed hx).trace) h List.prefix_rfl

theorem step_txOut_prefix {s t : State} (h : step s = .next t) : s.txOut <+: t.txOut :=
  step_keeps (P := fun u => s.txOut <+: u.txOut) (fun u hu => hu.trans u.engine_txOut_prefix) (fun _ _ _ hu => hu)
    (fun _ _ _ hu => hu) (fun _ _ _ hx hu => hu.trans (exec_progressed hx).txOut) h List.prefix_rfl

end Sys2Proof.Machine
end

section
/-! PROOF. The invariants of the transmitter (R30, R37), the writers of `uart_state` and of the pins (R30, R36), and
the working registers (R33). -/

namespace Sys2Proof.Machine

/-! ### `uart_state` and the registers it vouches for -/

/-- The merge of line control sets its bits (42 R110). -/
theorem or_lcrh8n1_and (w : Word) : (w ||| lcrh8n1) &&& lcrh8n1 = lcrh8n1 := by
  ext i h
  simp only [BitVec.getElem_and, BitVec.getElem_or]
  cases lcrh8n1[i] <;> simp

/-- INITIALIZE leaves the transmitter programmed (42 R114). -/
theorem State.uartSequence_programmed {baud : Word} (h : baudValid baud = true) (s : State) :
    (s.uartSequence baud).complete.Programmed := by
  intro _
  rw [State.uartSequence_eq]
  exact ⟨rfl, or_lcrh8n1_and _, baud, h, rfl, rfl⟩

/-- `uart_state` and the four registers of the UART are as before. -/
structure SameUart (s t : State) : Prop where
  uart : t.uart = s.uart
  ibrd : t.regs.ibrd = s.regs.ibrd
  fbrd : t.regs.fbrd = s.regs.fbrd
  lcrh : t.regs.lcrh = s.regs.lcrh
  cr : t.regs.cr = s.regs.cr

theorem State.Programmed.congr {s t : State} (h : SameUart s t) (hs : s.Programmed) : t.Programmed := by
  unfold State.Programmed
  rw [h.uart, h.ibrd, h.fbrd, h.lcrh, h.cr]
  exact hs

/-- A command leaves the UART side alone, or is an INITIALIZE that completes, or a raw write to a register of the UART
(R30, 40 R89 (a)). -/
theorem exec_uart_cases {i : Instr} {s t : State} (h : exec i s = .next t) :
    SameUart s t ∨
      (t.uart = .initialized ∧ t.Programmed ∧ ∃ baud, i = .uartInitialize baud ∧ baudValid baud = true) ∨
      (t.uart = .uninitialized ∧
        ∃ r ∈ [Reg.ibrd, .fbrd, .lcrh, .cr], ∃ v, i = .regWrite (s.cfg.addr (.reg r)) v) := by
  cases exec_effect h with
  | rejected | nothing | drRejected | halted => exact .inl ⟨rfl, rfl, rfl, rfl, rfl⟩
  | read | text => exact .inl (by constructor <;> simp)
  | drWritten => exact .inl (by constructor <;> simp [State.drWrite_eq])
  | setFunction => exact .inl (by constructor <;> simp [State.setField_eq, RegFile.write])
  | setPull => exact .inl (by constructor <;> simp [State.pullHandshake_eq, RegFile.write])
  | initialized baud hb =>
    exact .inr (.inl ⟨by simp [State.uartSequence_eq], s.uartSequence_programmed hb, baud, rfl, hb⟩)
  | regWritten addr v r hr =>
    have haddr : addr = s.cfg.addr (.reg r) := (Board.addr_of_locate hr).symm
    cases r with
    | fsel | pud | pudclk => exact .inl ⟨rfl, rfl, rfl, rfl, rfl⟩
    | ibrd | fbrd | lcrh | cr =>
      refine .inr (.inr ⟨rfl, _, ?_, v, congrArg (Instr.regWrite · v) haddr⟩)
      simp

/-- Whatever a command does to the UART, an Initialized transmitter is a programmed one after it. -/
theorem exec_keeps_programmed {i : Instr} {s t : State} (h : exec i s = .next t) (hs : s.Programmed) :
    t.Programmed := by
  rcases exec_uart_cases h with hsame | ⟨-, ht, -⟩ | ⟨hu, -⟩
  · exact hs.congr hsame
  · exact ht
  · intro hinit
    rw [hu] at hinit
    cases hinit

/-! ### The bound of the queue -/

/-- A DR write that found room leaves at most FIFO_DEPTH bytes queued, whatever was queued (log 2). -/
theorem State.drWrite_queueBounded {s : State} (h : s.fifoIsFull = false) (v : Word) : (s.drWrite v).QueueBounded := by
  have hdepth : 0 < s.cfg.fifoDepth := (State.fifoIsFull_eq_false.mp h).1
  simp only [State.QueueBounded, State.drWrite_eq, List.length_append, List.length_drop, List.length_singleton]
  omega

theorem State.transmitBytes_queueBounded {s : State} (hs : s.QueueBounded) (text : List Byte) :
    (s.transmitBytes text).QueueBounded := by
  induction text generalizing s with
  | nil => exact hs
  | cons y ys ih =>
    cases hf : s.drFault y with
    | some f => simpa [State.transmitBytes, hf] using hs
    | none => simpa [State.transmitBytes, hf] using ih (s.drWrite_queueBounded (State.drFault_eq_none.mp hf).2 _)

/-- A queue that got no longer is still within its bound. -/
theorem State.QueueBounded.mono {s t : State} (hs : s.QueueBounded) (hc : t.cfg = s.cfg)
    (hq : t.txq.length ≤ s.txq.length) : t.QueueBounded := by
  unfold State.QueueBounded
  rw [hc]
  exact hq.trans hs

theorem exec_keeps_queueBounded {i : Instr} {s t : State} (h : exec i s = .next t) (hs : s.QueueBounded) :
    t.QueueBounded := by
  cases exec_effect h with
  | rejected | nothing | drRejected | halted => exact hs
  | read => exact hs.mono (by simp) (by simp)
  | setFunction => exact hs.mono (by simp [State.setField_eq]) (by simp [State.setField_eq])
  | setPull => exact hs.mono (by simp [State.pullHandshake_eq]) (by simp [State.pullHandshake_eq])
  | drWritten i v hv hf => exact State.drWrite_queueBounded (State.drFault_eq_none.mp hf).2 v
  | text bytes => exact State.transmitBytes_queueBounded hs bytes
  | regWritten addr v r => exact hs.mono (by simp) (State.rawWriteEffect_length_le r _)
  | initialized baud =>
    exact hs.mono (by simp [State.uartSequence_eq]) (by simpa [State.uartSequence_eq] using s.disturbQueue_length_le)

/-! ### Who writes the pins -/

/-- A raw write moves a pull latch only if it is to a pull or clock register of its chain (40 R88). -/
theorem State.rawWriteEffect_pull_ne {r : Reg} {s : State} {p : Fin 54}
    (h : (s.rawWriteEffect r).pull[p] ≠ s.pull[p]) :
    ∃ k : Fin 2, k.val = p.val / 32 ∧ (r = .pud k ∨ r = .pudclk k) := by
  have hchain : ∀ k, (s.disturbChain k).pull[p] ≠ s.pull[p] → k.val = p.val / 32 := by
    intro k hk
    by_contra hne
    exact hk (by simp [Ne.symm hne])
  cases r with
  | pud k => exact ⟨k, hchain k h, .inl rfl⟩
  | pudclk k => exact ⟨k, hchain k h, .inr rfl⟩
  | cr => exact absurd (by simp [State.rawWriteEffect, State.disturbQueue_pull]) h
  | fsel | ibrd | fbrd | lcrh => exact absurd rfl h

/-- A pull latch changes by SET_PULL_UP_DOWN of its pin, or by a raw write to a register of its chain (R36, 40 R88). -/
theorem exec_pull_ne {i : Instr} {s t : State} {p : Fin 54} (h : exec i s = .next t) (hne : t.pull[p] ≠ s.pull[p]) :
    (∃ pin code, i = .setPullUpDown pin code ∧ pin.toNat = p.val) ∨
      ∃ (k : Fin 2) (v : Word), k.val = p.val / 32 ∧
        (i = .regWrite (s.cfg.addr (.reg (.pud k))) v ∨ i = .regWrite (s.cfg.addr (.reg (.pudclk k))) v) := by
  cases exec_effect h with
  | rejected | nothing | drRejected | halted => exact absurd rfl hne
  | read | text => simp at hne
  | drWritten => simp [State.drWrite_eq] at hne
  | setFunction => simp [State.setField_eq] at hne
  | initialized => simp [State.uartSequence_eq] at hne
  | setPull pin v =>
    refine .inl ⟨pin, v.code, rfl, ?_⟩
    by_contra hpin
    exact hne (by simp [State.pullHandshake_eq, Vector.getElem_setIfInBounds_ne _ hpin])
  | regWritten addr v r hr =>
    obtain ⟨k, hk, rfl | rfl⟩ := State.rawWriteEffect_pull_ne hne
    · exact .inr ⟨k, v, hk, .inl (by rw [Board.addr_of_locate hr])⟩
    · exact .inr ⟨k, v, hk, .inr (by rw [Board.addr_of_locate hr])⟩

/-- A register that reads otherwise after a write is the one written. -/
theorem RegFile.eq_of_read_write_ne {f : RegFile} {q r : Reg} {v : Word} (h : (f.write q v).read r ≠ f.read r) :
    r = q := by
  by_contra hne
  exact h (RegFile.read_write_other f v hne)

/-- A function-select register changes by SET_FUNCTION of one of its pins, or by a raw write to it (R15, 41 R95). -/
theorem exec_fsel_ne {i : Instr} {s t : State} {n : Fin 6} (h : exec i s = .next t)
    (hne : t.regs.read (.fsel n) ≠ s.regs.read (.fsel n)) :
    (∃ pin code, i = .setFunction pin code ∧ pin.toNat / 10 = n.val) ∨
      ∃ v, i = .regWrite (s.cfg.addr (.reg (.fsel n))) v := by
  cases exec_effect h with
  | rejected | nothing | drRejected | halted => exact absurd rfl hne
  | read | text => simp at hne
  | drWritten => simp [State.drWrite_eq] at hne
  | setPull => simp [State.pullHandshake_eq] at hne
  | initialized => simp [State.uartSequence_eq, RegFile.read] at hne
  | setFunction pin code hp =>
    simp only [State.complete_regs, State.setField_eq] at hne
    obtain rfl : n = fselIndex pin.toNat := Reg.fsel.inj (RegFile.eq_of_read_write_ne hne)
    exact .inl ⟨pin, code, rfl, (fselIndex_val hp).symm⟩
  | regWritten addr v r hr =>
    simp only [State.complete_regs, State.rawWriteEffect_regs, State.memWrite_reg_regs] at hne
    obtain rfl : .fsel n = r := RegFile.eq_of_read_write_ne hne
    exact .inr ⟨v, by rw [Board.addr_of_locate hr]⟩

/-! ### The working registers -/

/-- The state with nothing in A, B and T. -/
def State.clearWork (s : State) : State := { s with a := 0, b := 0, t := 0 }

/-- The outcome of a command with nothing in A, B and T. -/
def clearedWork : Host.Outcome State Fault Refusal → Host.Outcome State Fault Refusal
  | .next s => .next s.clearWork
  | .fault f => .fault f
  | .refused r => .refused r

theorem State.clearWork_cfg (s : State) : s.clearWork.cfg = s.cfg := rfl

theorem State.drFault_clearWork (y : Byte) (s : State) : s.clearWork.drFault y = s.drFault y := rfl

theorem State.disturbQueue_clearWork (s : State) : s.clearWork.disturbQueue = s.disturbQueue.clearWork := by
  by_cases h : s.txq = [] <;> simp [State.disturbQueue, State.clearWork, h]

theorem State.transmitBytes_clearWork (text : List Byte) (s : State) :
    s.clearWork.transmitBytes text = (s.transmitBytes text).clearWork := by
  induction text generalizing s with
  | nil => rfl
  | cons y ys ih =>
    simp only [State.transmitBytes, State.drFault_clearWork]
    split
    · rfl
    · exact ih (s.drWrite (drWord y))

theorem State.rawWriteEffect_clearWork (r : Reg) (s : State) :
    s.clearWork.rawWriteEffect r = (s.rawWriteEffect r).clearWork := by
  cases r with
  | cr => simp only [State.rawWriteEffect, State.disturbQueue_clearWork]; rfl
  | _ => rfl

theorem State.uartSequence_clearWork (baud : Word) (s : State) :
    (s.clearWork.uartSequence baud).clearWork = (s.uartSequence baud).clearWork := by
  simp only [State.uartSequence_eq, State.disturbQueue_clearWork]
  rfl

/-- No command looks at A, B or T: it does the same to the rest of the state when they are cleared first (R33). -/
theorem clearedWork_exec (i : Instr) (s : State) : clearedWork (exec i s.clearWork) = clearedWork (exec i s) := by
  cases i with
  | regRead addr =>
    simp only [exec, execRegRead, State.clearWork_cfg]
    cases s.cfg.locate addr with
    | none => rfl
    | some l => cases l <;> rfl
  | regWrite addr v =>
    simp only [exec, execRegWrite, State.clearWork_cfg, State.drFault_clearWork]
    cases s.cfg.locate addr with
    | none => rfl
    | some l =>
      cases l with
      | dr => cases s.drFault (drByte v) <;> rfl
      | reg r =>
        change clearedWork (.next ((s.memWrite (.reg r) v).clearWork.rawWriteEffect r).complete) = _
        rw [State.rawWriteEffect_clearWork]
        rfl
  | pinConstruct pin => rfl
  | setFunction pin code =>
    simp only [exec, execSetFunction, State.setField_eq]
    split <;> rfl
  | setPullUpDown pin code =>
    simp only [exec, execSetPullUpDown, State.pullHandshake_eq]
    split
    · split <;> rfl
    · rfl
  | uartConstruct base =>
    by_cases hb : base.toNat = s.cfg.uartBase <;>
      simp only [exec, execUartConstruct, State.clearWork_cfg, hb, if_true, if_false] <;> rfl
  | uartInitialize baud =>
    simp only [exec, execUartInitialize]
    split
    · exact congrArg (fun u => Host.Outcome.next u.complete) (s.uartSequence_clearWork baud)
    · rfl
  | transmit y =>
    simp only [exec, execTransmit, State.drFault_clearWork]
    split <;> rfl
  | transmitText bytes =>
    simp only [exec, execTransmitText, State.transmitBytes_clearWork]
    rfl
  | halt => rfl

end Sys2Proof.Machine
end

section
/-! PROOF. How far the engine moves (42 R119, R120), and the FIFO-full draws of a step (R44, 42 R117). -/

namespace Sys2Proof.Machine

/-! ### The moves of the engine -/

/-- While the transmitter is Uninitialized the engine does nothing (42 R120). -/
theorem State.engine_uninitialized {s : State} (h : s.uart = .uninitialized) : s.engine = s := by
  simp [State.engine, h]

/-- With nothing queued the engine does nothing (42 R120). -/
theorem State.engine_empty {s : State} (h : s.txq = []) : s.engine = s := by
  simp [State.engine, h]

/-- With bytes queued in an Initialized transmitter the engine moves as many as the draw says. -/
theorem State.engine_initialized {s : State} (hu : s.uart = .initialized) (hq : s.txq ≠ []) :
    s.engine = { s with draws := s.draws.useMoves }.moveBytes s.draws.moves := by
  simp [State.engine, hu, hq]

/-- Of an Initialized transmitter the bytes drawn leave the queue, also where it has none. -/
theorem State.engine_moves {s : State} (hu : s.uart = .initialized) :
    s.engine.txOut = s.txOut ++ s.txq.take s.draws.moves ∧ s.engine.txq = s.txq.drop s.draws.moves := by
  by_cases hq : s.txq = []
  · simp [State.engine_empty hq, hq]
  · simp [State.engine_initialized hu hq]

/-- The move of an Initialized transmitter, as one equation. -/
theorem State.engine_eq_of_initialized {s : State} (hu : s.uart = .initialized) :
    s.engine =
      { s with
        txOut := s.txOut ++ s.txq.take s.draws.moves
        txq := s.txq.drop s.draws.moves
        draws := s.engine.draws } := by
  obtain ⟨ho, hq⟩ := State.engine_moves hu
  exact s.engine_eq.trans (by rw [ho, hq])

/-- The engine draws of a step in which the engine moves nothing before the command and `n` bytes after it; with
nothing queued its first move takes no draw. -/
def stayThenMove (queued : List Byte) (n : Nat) : Supply Nat :=
  if queued = [] then ⟨[n], 0⟩ else ⟨[0, n], 0⟩

theorem State.engine_stayThenMove {s : State} {n : Nat} (hu : s.uart = .initialized)
    (hm : s.draws.engineMoves = stayThenMove s.txq n) :
    s.engine.txOut = s.txOut ∧ s.engine.txq = s.txq ∧ s.engine.draws.moves = n := by
  by_cases hq : s.txq = []
  · rw [State.engine_empty hq]
    simp [Draws.moves, hm, stayThenMove, hq, Supply.head]
  · rw [State.engine_initialized hu hq]
    simp [Draws.moves, hm, stayThenMove, hq, Supply.head, Supply.use]

/-! ### The FIFO-full draws of a sequence of bytes -/

/-- FIFO-full draws take no engine draw (log 10). -/
@[simp] theorem Draws.afterFull_engineMoves (n : Nat) (d : Draws) : (d.afterFull n).engineMoves = d.engineMoves := by
  induction n generalizing d with
  | zero => rfl
  | succ n ih => exact ih d.useFull

/-- A sequence of bytes takes no engine draw. -/
theorem State.transmitBytes_moves (text : List Byte) (s : State) :
    (s.transmitBytes text).draws.moves = s.draws.moves := by
  obtain ⟨pre, -, -, -, -, h, -⟩ := s.transmitBytes_spec text
  rw [h]
  simp [Draws.moves]

theorem State.noOverflowFor_zero (s : State) : s.NoOverflowFor 0 := fun _ hj => absurd hj (Nat.not_lt_zero _)

/-- The next draw and, after the write it allows, the draws that follow (42 R118). -/
theorem State.noOverflowFor_succ {s : State} {n : Nat} (v : Word) :
    s.NoOverflowFor (n + 1) ↔ s.fifoIsFull = false ∧ (s.drWrite v).NoOverflowFor n := by
  refine Nat.forall_lt_succ_left.trans ?_
  simp only [State.NoOverflowFor, State.fifoIsFull_eq_false, Draws.afterFull, State.drWrite_eq]

/-- A text that meets no full FIFO and fits the queue is queued whole, and nothing moves to the output (42 R118). -/
theorem State.transmitBytes_queues {s : State} {text : List Byte} (hu : s.uart = .initialized)
    (hfull : s.NoOverflowFor text.length) (hroom : s.txq.length + text.length ≤ s.cfg.fifoDepth) :
    (s.transmitBytes text).fault = s.fault ∧ (s.transmitBytes text).txOut = s.txOut ∧
      (s.transmitBytes text).txq = s.txq ++ text := by
  induction text generalizing s with
  | nil => simp [State.transmitBytes]
  | cons y ys ih =>
    rw [List.length_cons] at hfull hroom
    obtain ⟨hnow, hlater⟩ := (State.noOverflowFor_succ (drWord y)).mp hfull
    have hcheck : s.drFault y = none := State.drFault_eq_none.mpr ⟨hu, hnow⟩
    have hout : s.txq.length + 1 - s.cfg.fifoDepth = 0 := by omega
    have hq : (s.drWrite (drWord y)).txq = s.txq ++ [y] := by simp [State.drWrite_eq, hout]
    have ho : (s.drWrite (drWord y)).txOut = s.txOut := by simp [State.drWrite_eq, hout]
    obtain ⟨hf', ho', hq'⟩ := ih (s := s.drWrite (drWord y)) hu hlater (by
      have hc : (s.drWrite (drWord y)).cfg = s.cfg := rfl
      rw [hq, hc, List.length_append, List.length_singleton]
      omega)
    simp only [State.transmitBytes, hcheck]
    exact ⟨hf', ho'.trans ho, by rw [hq', hq]; simp⟩

/-! ### A step that performs a text -/

/-- The step of an accepting block whose next command decodes. -/
theorem step_command {s : State} {c : PortCommand} {rest : List PortCommand} {i : Instr} (hw : s.cfg.WfMap)
    (ha : s.accepts = true) (hp : s.port = c :: rest) (hd : decode c = .ok i) :
    step s = thenEngine (exec i ({ s.engine with port := rest }.load c)) := by
  rw [step, if_pos hw]
  simp [State.fetch, ha, hp, hd]

/-- TRANSMIT is TRANSMIT_TEXT of one byte (42 R118). -/
theorem exec_transmit_eq_text (y : Byte) (s : State) : exec (.transmit y) s = exec (.transmitText [y]) s := by
  simp only [exec, execTransmit, execTransmitText, State.transmitBytes]
  cases s.drFault y <;> rfl

/-- Wherever the engine is to be when a text has completed, some engine draws bring it there (42 R119). -/
theorem step_text_moves {s : State} {c : PortCommand} {rest : List PortCommand} {i : Instr} {text : List Byte} {n : Nat}
    (hw : s.cfg.WfMap) (ha : s.accepts = true) (hu : s.uart = .initialized) (hp : s.port = c :: rest)
    (hd : decode c = .ok i) (hi : ∀ u, exec i u = exec (.transmitText text) u) (hfull : s.NoOverflowFor text.length)
    (hroom : s.txq.length + text.length ≤ s.cfg.fifoDepth) (hm : s.draws.engineMoves = stayThenMove s.txq n) :
    ∃ t, step s = .next t ∧ t.NoFault ∧ t.txOut = s.txOut ++ (s.txq ++ text).take n ∧
      t.txq = (s.txq ++ text).drop n := by
  obtain ⟨houts, hqs, hn⟩ := State.engine_stayThenMove hu hm
  let u : State := { s.engine with port := rest }.load c
  obtain ⟨hf, ho, hq⟩ := State.transmitBytes_queues (s := u) (text := text) (s.engine_uart.trans hu)
    (State.NoOverflowFor.congr s.engine_cfg s.engine_fifoFull hfull)
    (by simpa [u, hqs] using hroom)
  obtain ⟨hout', hq'⟩ := State.engine_moves (s := (u.transmitBytes text).complete)
    ((u.transmitBytes_uart text).trans (s.engine_uart.trans hu))
  have hmoves : (u.transmitBytes text).complete.draws.moves = n := (u.transmitBytes_moves text).trans hn
  rw [hmoves] at hout' hq'
  refine ⟨(u.transmitBytes text).complete.engine, ?_, ?_, ?_, ?_⟩
  · rw [step_command hw ha hp hd, hi]; rfl
  · rw [State.NoFault, State.engine_fault]
    exact hf.trans (s.engine_fault.trans (State.accepts_iff.mp ha).1)
  · rw [hout', State.complete_txOut, State.complete_txq, ho, hq]
    simp [u, houts, hqs]
  · rw [hq', State.complete_txq, hq]
    simp [u, hqs]

/-! ### NoOverflow and the fault -/

/-- The fault mark is not UartFifoOverflow. -/
def State.FreeOfOverflow (s : State) : Prop := ∀ y, s.fault ≠ some (.uartFifoOverflow y)

theorem State.FreeOfOverflow.congr {s t : State} (h : t.fault = s.fault) (hs : s.FreeOfOverflow) : t.FreeOfOverflow :=
  fun y => h ▸ hs y

/-- A failed check of a DR write is the overflow exactly where the transmitter is Initialized, which takes the draw. -/
theorem State.drFault_freeOfOverflow_iff {s : State} {y : Byte} {f : Fault} (h : s.drFault y = some f) :
    (s.raise f).FreeOfOverflow ↔ s.uart ≠ .initialized := by
  cases hu : s.uart with
  | uninitialized =>
    rw [State.drFault_uninitialized hu] at h
    cases h
    simp [State.FreeOfOverflow]
  | initialized =>
    have hfull : s.fifoIsFull = true := by
      by_contra hnot
      rw [State.drFault_eq_none.mpr ⟨hu, Bool.not_eq_true _ ▸ hnot⟩] at h
      cases h
    rw [State.drFault_full hu hfull] at h
    cases h
    simp [State.FreeOfOverflow]

/-- A sequence of bytes raises no overflow exactly if each of its draws answers "not full", where it takes draws. -/
theorem State.transmitBytes_freeOfOverflow_iff {s : State} (hs : s.FreeOfOverflow) (text : List Byte) :
    (s.transmitBytes text).FreeOfOverflow ↔ (s.uart = .initialized → s.NoOverflowFor text.length) := by
  induction text generalizing s with
  | nil => exact iff_of_true hs fun _ => s.noOverflowFor_zero
  | cons y ys ih =>
    cases hf : s.drFault y with
    | some f =>
      have hfull : s.uart = .initialized → ¬ s.NoOverflowFor (ys.length + 1) := by
        intro hu hno
        rw [State.drFault_eq_none.mpr ⟨hu, hno 0 (Nat.succ_pos _)⟩] at hf
        cases hf
      simp only [State.transmitBytes, hf, State.drFault_freeOfOverflow_iff hf, List.length_cons]
      exact ⟨fun hne hu => absurd hu hne, fun h hu => hfull hu (h hu)⟩
    | none =>
      obtain ⟨hu, hnow⟩ := State.drFault_eq_none.mp hf
      simp only [State.transmitBytes, hf, List.length_cons, State.noOverflowFor_succ (drWord y), hnow, true_and]
      exact ih (s := s.drWrite (drWord y)) hs

/-- A command with a single DR write makes one. -/
theorem drWrites_of_drWordOf {c : Board} {i : Instr} {v : Word} (h : drWordOf c i = some v) : drWrites c i = 1 := by
  cases i with
  | regWrite addr w =>
    simp only [drWordOf] at h
    split at h
    next hl => exact if_pos (Board.addr_of_locate hl).symm
    next => cases h
  | transmit y => rfl
  | _ => cases h

/-- A write to a register is no DR write. -/
theorem drWrites_of_locate_reg {c : Board} (hw : c.WfMap) {addr v : Word} {r : Reg}
    (h : c.locate addr = some (.reg r)) : drWrites c (.regWrite addr v) = 0 := by
  refine if_neg fun e => ?_
  rw [e, Board.locate_addr hw] at h
  cases h

/-- A command raises no overflow exactly if each FIFO-full draw it takes answers "not full" (42 R117). -/
theorem exec_freeOfOverflow_iff {i : Instr} {s t : State} (hw : s.cfg.WfMap) (hs : s.FreeOfOverflow)
    (h : exec i s = .next t) :
    t.FreeOfOverflow ↔ (s.uart = .initialized → s.NoOverflowFor (drWrites s.cfg i)) := by
  have hnone : t.FreeOfOverflow → drWrites s.cfg i = 0 →
      (t.FreeOfOverflow ↔ (s.uart = .initialized → s.NoOverflowFor (drWrites s.cfg i))) :=
    fun ht h0 => iff_of_true ht fun _ => h0 ▸ s.noOverflowFor_zero
  cases exec_effect h with
  | rejected i f hi h0 hf => exact hnone (fun y e => hf y (Option.some.inj e)) (h0 hw)
  | nothing i hi h0 => exact hnone hs h0
  | read addr l => exact hnone (hs.congr (by simp)) rfl
  | regWritten addr v r hr => exact hnone (hs.congr (by simp)) (drWrites_of_locate_reg hw hr)
  | setFunction => exact hnone (hs.congr (by simp [State.setField_eq])) rfl
  | setPull => exact hnone (hs.congr (by simp [State.pullHandshake_eq])) rfl
  | initialized => exact hnone (hs.congr (by simp [State.uartSequence_eq])) rfl
  | halted => exact hnone hs rfl
  | text bytes => exact State.transmitBytes_freeOfOverflow_iff hs bytes
  | drRejected i v f hv hf =>
    rw [drWrites_of_drWordOf hv, State.drFault_freeOfOverflow_iff hf]
    refine ⟨fun hne hu => absurd hu hne, fun hno hu => ?_⟩
    rw [State.drFault_eq_none.mpr ⟨hu, hno hu 0 Nat.one_pos⟩] at hf
    cases hf
  | drWritten i v hv hf =>
    rw [drWrites_of_drWordOf hv]
    exact iff_of_true (hs.congr (by simp [State.drWrite_eq])) fun _ =>
      (State.noOverflowFor_succ v).mpr ⟨(State.drFault_eq_none.mp hf).2, State.noOverflowFor_zero _⟩

/-- Only the configuration and the supply of FIFO-full draws decide about NoOverflowFor, both ways. -/
theorem State.noOverflowFor_congr_iff {s t : State} {n : Nat} (hc : t.cfg = s.cfg)
    (hd : t.draws.fifoFull = s.draws.fifoFull) : t.NoOverflowFor n ↔ s.NoOverflowFor n :=
  ⟨State.NoOverflowFor.congr hc.symm hd.symm, State.NoOverflowFor.congr hc hd⟩

/-- The same said of the state the step began in: taking the command and the engine's move leave the configuration,
`uart_state` and the FIFO-full draws alone. -/
theorem exec_freeOfOverflow_iff_before {i : Instr} {s v u : State} (h : exec i v = .next u) (hc : v.cfg = s.cfg)
    (hu : v.uart = s.uart) (hd : v.draws.fifoFull = s.draws.fifoFull) (hw : s.cfg.WfMap) (hv : v.FreeOfOverflow) :
    u.FreeOfOverflow ↔ (s.uart = .initialized → s.NoOverflowFor (drWrites s.cfg i)) := by
  have hwv : v.cfg.WfMap := by rwa [hc]
  rw [exec_freeOfOverflow_iff hwv hv h, hu, hc, State.noOverflowFor_congr_iff hc hd]

/-- A step that performs no command takes no FIFO-full draw. -/
theorem State.fullDrawsNext_eq_zero {s : State} (h : s.fetch.1 = none) : s.fullDrawsNext = 0 := by
  simp [State.fullDrawsNext, h]

/-- The draws of a step that performs a command. -/
theorem State.fullDrawsNext_command {s : State} {c : PortCommand} {rest : List PortCommand} {i : Instr}
    (hw : s.cfg.WfMap) (ha : s.accepts = true) (hp : s.port = c :: rest) (hd : decode c = .ok i) :
    s.fullDrawsNext = if s.uart = .initialized then drWrites s.cfg i else 0 := by
  by_cases hu : s.uart = .initialized
  · rw [if_pos hu]
    exact (if_pos ⟨hw, hu⟩).trans (by simp [State.fetch, ha, hp, hd])
  · rw [if_neg hu]
    exact if_neg fun hc => hu hc.2

/-- A step raises no overflow exactly if each FIFO-full draw it takes answers "not full". -/
theorem step_freeOfOverflow_iff {s t : State} (hs : s.FreeOfOverflow) (h : step s = .next t) :
    t.FreeOfOverflow ↔ s.NoOverflowFor s.fullDrawsNext := by
  have hnone : t.FreeOfOverflow → s.fetch.1 = none → (t.FreeOfOverflow ↔ s.NoOverflowFor s.fullDrawsNext) :=
    fun ht h0 => iff_of_true ht (State.fullDrawsNext_eq_zero h0 ▸ s.noOverflowFor_zero)
  have he : s.engine.FreeOfOverflow := hs.congr s.engine_fault
  obtain ⟨hw, ⟨rfl, hn⟩ | ⟨c, rest, ha, hp, ⟨i, u, hd, hx, rfl⟩ | ⟨e, hd, rfl⟩⟩⟩ := step_cases h
  · refine hnone he ?_
    rcases hn with ha | hp
    · simp [State.fetch, ha]
    · simp [State.fetch, hp]
  · have hexec := exec_freeOfOverflow_iff_before hx s.engine_cfg s.engine_uart s.engine_fifoFull hw he
    have hu : u.engine.FreeOfOverflow ↔ u.FreeOfOverflow := by simp only [State.FreeOfOverflow, State.engine_fault]
    rw [hu, hexec, State.fullDrawsNext_command hw ha hp hd]
    cases s.uart with
    | initialized => simp
    | uninitialized => simp [State.noOverflowFor_zero]
  · exact hnone nofun (by simp [State.fetch, ha, hp, hd])

/-- A run that starts without the overflow and draws no "full" never gets it. -/
theorem Reaches.freeOfOverflow {s t : State} (hs : s.FreeOfOverflow) (hno : s.NoOverflow) (h : Reaches s t) :
    t.FreeOfOverflow := by
  induction h with
  | start => exact hs
  | next hr hstep ih => exact (step_freeOfOverflow_iff ih hstep).mpr (hno _ hr)

/-- A refused step takes no FIFO-full draw. -/
theorem State.fullDrawsNext_refused {s : State} (h : ¬ s.cfg.WfMap) : s.fullDrawsNext = 0 :=
  if_neg fun hc => h hc.1

end Sys2Proof.Machine
end

section
/-! PROOF. The statements of 10_state.md, and those of its rules in the other files. -/

namespace Sys2Proof

open Sys2Proof.Machine

/-- Settles O10: every clause reads a field of the launch; on a valid pin the FSEL index is p / 10. -/
theorem launchState : Obligations.LaunchState := by
  refine ⟨fun c image => ⟨rfl, rfl, rfl, rfl, rfl, rfl, fun p => ?_, fun p n hp hn => ?_, rfl, rfl, rfl⟩, _, rfl⟩
  · simp [State.launch]
  · obtain rfl : n = fselIndex p := Fin.ext (hn.trans (fselIndex_val hp).symm)
    rfl

/-- Settles O11: the launch satisfies the premises by its fields, and CFG_A is an admitted configuration. -/
theorem launchPremisesHold : Obligations.LaunchPremisesHold := by
  have hlaunch : ∀ (c : Board) (image : RegFile), c.WfMap → (State.launch c image).LaunchPremises :=
    fun c image hw => ⟨hw, rfl, rfl, rfl, rfl, rfl⟩
  have hcfgA : Board.cfgA.WfMap := Board.wfMap_of_pudOff (by decide) (by decide) (by decide)
  exact ⟨hlaunch, hlaunch _ _ hcfgA⟩

/-- Settles O55: at launch the transmitter is Uninitialized and the queue and the trace are empty. -/
theorem invariantsHoldAtLaunch : Obligations.InvariantsHoldAtLaunch := by
  have hlaunch : ∀ (c : Board) (image : RegFile), (State.launch c image).Programmed ∧
      (State.launch c image).QueueBounded ∧ (State.launch c image).BytesInOrder ∧
      (State.launch c image).TracePossible ∧ (State.launch c image).Idle :=
    fun c image => ⟨nofun, Nat.zero_le _, rfl, nofun, rfl⟩
  exact ⟨hlaunch, hlaunch _ _⟩

/-- Settles O54: a command leaves the UART side alone, programs it, or makes it Uninitialized (`exec_uart_cases`). -/
theorem stepsKeepTheTransmitterProgrammed : Obligations.StepsKeepTheTransmitterProgrammed := by
  intro s t hs h
  refine step_keeps (P := State.Programmed) (fun u hu => ?_) (fun _ _ _ hu => hu) (fun _ _ _ hu => hu)
    (fun _ _ _ hx hu => exec_keeps_programmed hx hu) h hs
  exact hu.congr (by constructor <;> simp)

/-- Settles O56: a byte joins the queue only where the FIFO is not full, and then there is room for it. -/
theorem stepsKeepTheQueueBounded : Obligations.StepsKeepTheQueueBounded := by
  intro s t hs h
  exact step_keeps (P := State.QueueBounded) (fun u hu => hu.mono u.engine_cfg u.engine_length_le)
    (fun _ _ _ hu => hu) (fun _ _ _ hu => hu) (fun _ _ _ hx hu => exec_keeps_queueBounded hx hu) h hs

/-- Settles O14: the engine moves as many bytes as the draw says, so a listed draw gives every move; when a text
completes, a draw of 0 before it and of `n` after it leaves its bytes anywhere between queue and output. -/
theorem engineMovesBytesInOrder : Obligations.EngineMovesBytesInOrder := by
  refine ⟨fun s => ⟨?_, ?_⟩, fun s n hu => ⟨⟨[n], 0⟩, ?_⟩, ?_⟩
  · rintro (hu | hq)
    · exact State.engine_uninitialized hu
    · exact State.engine_empty hq
  · rcases s.engine_cases with h | ⟨-, -, h⟩
    · exact ⟨0, s.draws, by simp [h]⟩
    · exact ⟨s.draws.moves, s.draws.useMoves, h⟩
  · exact ⟨_, State.engine_eq_of_initialized hu⟩
  · intro s c rest i text n hw hf hh hidle hu hp hd hi hfull hroom
    refine ⟨stayThenMove s.txq n, ?_⟩
    have hexec : ∀ u, exec i u = exec (.transmitText text) u := by
      rcases hi with rfl | ⟨y, rfl, rfl⟩
      · exact fun _ => rfl
      · exact exec_transmit_eq_text y
    exact step_text_moves (s := { s with draws := { s.draws with engineMoves := stayThenMove s.txq n } }) hw
      (State.accepts_iff.mpr ⟨hf, hh, hidle⟩) hu hp hd hexec (State.NoOverflowFor.congr (s := s) rfl rfl hfull)
      hroom rfl

/-- Settles O16: only HALT writes `halted`, and a halted block makes the engine's move only. -/
theorem haltedIsTerminal : Obligations.HaltedIsTerminal := by
  refine ⟨fun _ _ => rfl, fun i s t h => exec_halted_iff h, fun s t hs h => ?_⟩
  obtain rfl : t = s.engine := step_of_not_accepts (by simp [State.accepts, hs]) h
  simp [hs]

/-- Settles O17: a faulted block makes the engine's move only. -/
theorem faultIsFinal : Obligations.FaultIsFinal := by
  intro s t hs h
  obtain rfl : t = s.engine := step_of_not_accepts (by simp [State.accepts, hs]) h
  simp

/-- Settles O33: SET_FUNCTION writes one FSEL register, the handshake the two registers of one chain, and a fault
nothing. -/
theorem pinPropertiesAreIndependent : Obligations.PinPropertiesAreIndependent := by
  refine ⟨fun s t pin code h => ?_, fun s t pin code h => ?_⟩
  · rcases exec_setFunction_cases h with ⟨-, rfl⟩ | ⟨-, rfl⟩
    · rw [State.setField_eq]
      exact ⟨rfl, fun k => ⟨rfl, rfl⟩⟩
    · exact ⟨rfl, fun k => ⟨rfl, rfl⟩⟩
  · rcases exec_setPullUpDown_cases h with ⟨v, hp, -, rfl⟩ | rfl | rfl
    · rw [State.pullHandshake_eq]
      refine ⟨fun q => rfl, rfl, fun k hk => ?_⟩
      have hne : k ≠ pullIndex pin.toNat := fun e => hk (e ▸ pullIndex_val hp)
      have hpud : Reg.pud k ≠ .pud (pullIndex pin.toNat) := fun e => hne (Reg.pud.inj e)
      have hclk : Reg.pudclk k ≠ .pudclk (pullIndex pin.toNat) := fun e => hne (Reg.pudclk.inj e)
      exact ⟨RegFile.read_write_other s.regs 0 hpud, RegFile.read_write_other s.regs 0 hclk⟩
    · exact ⟨fun q => rfl, rfl, fun k _ => ⟨rfl, rfl⟩⟩
    · exact ⟨fun q => rfl, rfl, fun k _ => ⟨rfl, rfl⟩⟩

/-- Settles O46: every command and every move of the engine extends the trace and the output. -/
theorem traceIsOnlyAppendedTo : Obligations.TraceIsOnlyAppendedTo := by
  refine ⟨fun _ _ => rfl, fun s t h => ?_⟩
  obtain ⟨es, hes⟩ := step_trace_prefix h
  obtain ⟨bytes, hbytes⟩ := step_txOut_prefix h
  exact ⟨⟨es, hes.symm⟩, bytes, hbytes.symm⟩

/-- Settles O49: both commands do what the command with cleared working registers does. -/
theorem workingRegistersInfluenceNothing : Obligations.WorkingRegistersInfluenceNothing := by
  intro i s t a b w h
  obtain ⟨u, hu⟩ := exec_next i { s with a := a, b := b, t := w }
  have hcleared : clearedWork (.next u) = clearedWork (.next t) :=
    calc clearedWork (.next u) = clearedWork (exec i s.clearWork) := by rw [← hu, ← clearedWork_exec]; rfl
      _ = clearedWork (.next t) := by rw [clearedWork_exec, h]
  have hsame : u.clearWork = t.clearWork := Host.Outcome.next.inj hcleared
  exact ⟨u, hu, congrArg (fun v : State => { v with a := t.a, b := t.b, t := t.t }) hsame⟩

/-- Settles O50: the three ways of `exec_uart_cases`, of which the first changes nothing. -/
theorem onlyTheseWriteUartState : Obligations.OnlyTheseWriteUartState := by
  intro i s t h hne
  rcases exec_uart_cases h with hsame | ⟨hu, -, hi⟩ | hraw
  · exact absurd hsame.uart hne
  · exact .inl ⟨hu, hi⟩
  · exact .inr hraw

/-- Settles O51: a command that writes a latch or a function-select register names its pin or its address. -/
theorem onlyTheseWritePinState : Obligations.OnlyTheseWritePinState :=
  ⟨fun _ _ _ _ h hne => exec_pull_ne h hne, fun _ _ _ _ h hne => exec_fsel_ne h hne⟩

/-- Settles O52: no command, no move of the engine and no illegal command writes `cfg`; REG_READ alone responds. -/
theorem configurationIsFixed : Obligations.ConfigurationIsFixed :=
  ⟨fun _ _ h => step_cfg h, fun _ _ _ h hi => exec_rdata h hi⟩

/-- Settles O53: every command ends complete, an illegal one too, and the engine does not touch `upc`. -/
theorem stepsKeepIdle : Obligations.StepsKeepIdle := by
  intro s t hs h
  obtain ⟨-, ⟨rfl, -⟩ | ⟨c, rest, -, -, ⟨i, u, -, hx, rfl⟩ | ⟨e, -, rfl⟩⟩⟩ := step_cases h
  · exact s.engine_upc.trans hs
  · exact u.engine_upc.trans (exec_progressed hx).upc
  · rfl

/-- Settles O60: along a run, step by step, each FIFO-full draw answers "not full" exactly if the next state does not
hold the fault. -/
theorem noOverflowMeansNoOverflowFault : Obligations.NoOverflowMeansNoOverflowFault := by
  intro s hs
  constructor
  · exact fun hno t ht => ht.freeOfOverflow hs hno
  · intro hfree t ht
    by_cases hw : t.cfg.WfMap
    · obtain ⟨u, hu⟩ := step_next hw
      exact (step_freeOfOverflow_iff (hfree t ht) hu).mp (hfree u (.next ht hu))
    · exact State.fullDrawsNext_refused hw ▸ t.noOverflowFor_zero

end Sys2Proof
end

section
/-! PROOF. The bus (20_memory.md): which events the block can make (R46, R47, R49, 41 R100), and that a command looks
at no event made before it (R57 (b)). -/

namespace Sys2Proof

/-- Every location is found at its address, if not it alone: WF_MAP is not needed for that (R46). -/
@[simp] theorem Board.locate_addr_isSome (c : Board) (l : Location) : (c.locate (c.addr l)).isSome = true := by
  rw [Option.isSome_iff_ne_none]
  exact fun h => Board.locate_eq_none.mp h l rfl

/-- Under WF_MAP nothing is at a misaligned address (R51). -/
theorem Board.locate_misaligned {c : Board} (h : c.WfMap) {a : Word} (ha : a.toNat % 4 ≠ 0) : c.locate a = none := by
  refine Board.locate_eq_none.mpr fun l e => ha ?_
  rw [← e, Board.addr_toNat h]
  exact Board.addrNat_aligned h.1 l

end Sys2Proof

namespace Sys2Proof.Machine

/-! ### MemRead and MemWrite -/

/-- The byte a DR write submits is the low byte of the word (10 R25). -/
theorem drByte_eq_setWidth (v : Word) : drByte v = v.setWidth 8 :=
  (BitVec.setWidth_eq_extractLsb' (by decide)).symm

/-- A register reads back as last written (R14, log 20). -/
theorem State.memRead_memWrite_same (r : Reg) (v : Word) (s : State) :
    ((s.memWrite (.reg r) v).memRead (.reg r)).1 = v :=
  RegFile.read_write_same s.regs r v

/-- A write to a register does not show in another. -/
theorem State.memRead_memWrite_other {r r' : Reg} (h : r' ≠ r) (v : Word) (s : State) :
    ((s.memWrite (.reg r) v).memRead (.reg r')).1 = (s.memRead (.reg r')).1 :=
  RegFile.read_write_other s.regs v h

/-! ### The events a command can make -/

@[simp] theorem Event.possible_rd (c : Board) (l : Location) (v : Word) :
    (Event.rd (c.addr l) v).possible c = true := c.locate_addr_isSome l

@[simp] theorem Event.possible_wr (c : Board) (l : Location) (v : Word) :
    (Event.wr (c.addr l) v).possible c = true := c.locate_addr_isSome l

@[simp] theorem Event.possible_dly (c : Board) : (Event.dly nDelay).possible c = true := rfl

/-- Whatever a command appends to the trace, the block can make (R49, 41 R100). -/
theorem exec_appends_possible {i : Instr} {s t : State} (h : exec i s = .next t) :
    ∃ es, t.trace = s.trace ++ es ∧ ∀ e ∈ es, e.possible s.cfg = true := by
  cases exec_effect h with
  | rejected | nothing | drRejected | halted => exact ⟨[], (List.append_nil _).symm, nofun⟩
  | read addr l => exact ⟨[.rd (s.cfg.addr l) _], s.memRead_trace l, by simp⟩
  | regWritten addr v r => exact ⟨[.wr (s.cfg.addr (.reg r)) v], State.rawWriteEffect_trace r _, by simp⟩
  | drWritten i v => exact ⟨[.wr (s.cfg.addr .dr) v], rfl, by simp⟩
  | text bytes =>
    obtain ⟨pre, -, -, htrace, -⟩ := s.transmitBytes_spec bytes
    exact ⟨writeEvents s.cfg pre, htrace, by simp [writeEvents]⟩
  | setFunction => exact ⟨_, by rw [State.complete_trace, State.setField_eq], by simp⟩
  | setPull => exact ⟨_, by rw [State.complete_trace, State.pullHandshake_eq], by simp⟩
  | initialized => exact ⟨_, by rw [State.complete_trace, State.uartSequence_eq], by simp⟩

theorem exec_keeps_tracePossible {i : Instr} {s t : State} (h : exec i s = .next t) (hs : s.TracePossible) :
    t.TracePossible := by
  obtain ⟨es, htrace, hes⟩ := exec_appends_possible h
  intro e he
  rw [htrace, List.mem_append] at he
  rw [(exec_progressed h).cfg]
  exact he.elim (hs e) (hes e)

/-! ### Events made earlier -/

/-- The state with other events before those of its trace. -/
def State.precededBy (earlier : List Event) (s : State) : State := { s with trace := earlier ++ s.trace }

/-- The outcome of a command with other events before those of its trace. -/
def outcomePrecededBy (earlier : List Event) :
    Host.Outcome State Fault Refusal → Host.Outcome State Fault Refusal
  | .next s => .next (s.precededBy earlier)
  | .fault f => .fault f
  | .refused r => .refused r

section
variable (earlier : List Event) (s : State)

theorem State.precededBy_cfg : (s.precededBy earlier).cfg = s.cfg := rfl

theorem State.drFault_precededBy (y : Byte) : (s.precededBy earlier).drFault y = s.drFault y := rfl

theorem State.memRead_precededBy (l : Location) :
    (s.precededBy earlier).memRead l = ((s.memRead l).1, (s.memRead l).2.precededBy earlier) := by
  cases l <;> simp [State.memRead_reg, State.memRead_dr, State.precededBy]

theorem State.memWrite_reg_precededBy (r : Reg) (v : Word) :
    (s.precededBy earlier).memWrite (.reg r) v = (s.memWrite (.reg r) v).precededBy earlier := by
  simp [State.memWrite_reg, State.precededBy]

theorem State.drWrite_precededBy (v : Word) :
    (s.precededBy earlier).drWrite v = (s.drWrite v).precededBy earlier := by
  simp [State.drWrite_eq, State.precededBy]

theorem State.disturbQueue_precededBy :
    (s.precededBy earlier).disturbQueue = s.disturbQueue.precededBy earlier := by
  by_cases h : s.txq = [] <;> simp [State.disturbQueue, State.precededBy, h]

theorem State.rawWriteEffect_precededBy (r : Reg) :
    (s.precededBy earlier).rawWriteEffect r = (s.rawWriteEffect r).precededBy earlier := by
  cases r with
  | cr => simp only [State.rawWriteEffect, State.disturbQueue_precededBy]; rfl
  | _ => rfl

theorem State.setField_precededBy (p : Nat) (code : BitVec 3) :
    (s.precededBy earlier).setField p code = (s.setField p code).precededBy earlier := by
  simp [State.setField_eq, State.precededBy]

theorem State.pullHandshake_precededBy (p : Nat) (v : PullVariant) :
    (s.precededBy earlier).pullHandshake p v = (s.pullHandshake p v).precededBy earlier := by
  simp [State.pullHandshake_eq, State.precededBy]

theorem State.uartSequence_precededBy (baud : Word) :
    (s.precededBy earlier).uartSequence baud = (s.uartSequence baud).precededBy earlier := by
  simp only [State.uartSequence_eq, State.disturbQueue_precededBy]
  simp [State.precededBy]

end

theorem State.transmitBytes_precededBy (earlier : List Event) (text : List Byte) (s : State) :
    (s.precededBy earlier).transmitBytes text = (s.transmitBytes text).precededBy earlier := by
  induction text generalizing s with
  | nil => rfl
  | cons y ys ih =>
    simp only [State.transmitBytes, State.drFault_precededBy, State.drWrite_precededBy]
    split
    · rfl
    · exact ih (s.drWrite (drWord y))

/-- No command looks at the trace: events made earlier stay in front of what it does (R57 (b)). -/
theorem exec_precededBy (earlier : List Event) (i : Instr) (s : State) :
    exec i (s.precededBy earlier) = outcomePrecededBy earlier (exec i s) := by
  cases i with
  | regRead addr =>
    simp only [exec, execRegRead, State.precededBy_cfg, State.memRead_precededBy]
    split <;> rfl
  | regWrite addr v =>
    simp only [exec, execRegWrite, State.precededBy_cfg, State.drFault_precededBy, State.drWrite_precededBy,
      State.memWrite_reg_precededBy, State.rawWriteEffect_precededBy]
    split
    · rfl
    · split <;> rfl
    · rfl
  | pinConstruct pin => rfl
  | setFunction pin code =>
    simp only [exec, execSetFunction, State.setField_precededBy]
    split <;> rfl
  | setPullUpDown pin code =>
    simp only [exec, execSetPullUpDown, State.pullHandshake_precededBy]
    split
    · split <;> rfl
    · rfl
  | uartConstruct base =>
    by_cases hb : base.toNat = s.cfg.uartBase <;>
      simp only [exec, execUartConstruct, State.precededBy_cfg, hb, if_true, if_false] <;> rfl
  | uartInitialize baud =>
    simp only [exec, execUartInitialize, State.uartSequence_precededBy]
    split <;> rfl
  | transmit y =>
    simp only [exec, execTransmit, State.drFault_precededBy, State.drWrite_precededBy]
    split <;> rfl
  | transmitText bytes =>
    simp only [exec, execTransmitText, State.transmitBytes_precededBy]
    rfl
  | halt => rfl

end Sys2Proof.Machine
end

section
/-! PROOF. The statements of 20_memory.md. -/

namespace Sys2Proof

open Sys2Proof.Machine

/-- Settles O58: what a command appends the block can make, and the engine and an illegal command append nothing. -/
theorem stepsKeepTheTracePossible : Obligations.StepsKeepTheTracePossible := by
  intro s t hs h
  exact step_keeps (P := State.TracePossible) (fun u hu => by simpa [State.TracePossible] using hu)
    (fun _ _ _ hu => hu) (fun _ _ _ hu => hu) (fun _ _ _ hx hu => exec_keeps_tracePossible hx hu) h hs

/-- Settles O21: the look-up fails at an address that is none of the fifteen, and a misaligned one is none. -/
theorem unbackedAddressFaults : Obligations.UnbackedAddressFaults := by
  intro s addr data h
  have hnone : s.cfg.locate addr = none := by
    rcases h with hne | ⟨hw, hmis⟩
    · exact Board.locate_eq_none.mpr hne
    · exact Board.locate_misaligned hw hmis
  simp [exec, execRegRead, execRegWrite, hnone, State.raise]

/-- Settles O48: both states are the one with an empty trace, preceded by what was traced earlier, and so are the
states the command answers (`exec_precededBy`). -/
theorem traceOfACommandStandsAlone : Obligations.TraceOfACommandStandsAlone := by
  intro i s t earlier h
  obtain ⟨u, hu⟩ := exec_next i { s with trace := [] }
  have hexec : ∀ es, exec i { s with trace := es } = .next (u.precededBy es) := by
    intro es
    calc exec i { s with trace := es } = exec i (State.precededBy es { s with trace := [] }) := by
          simp [State.precededBy]
      _ = .next (u.precededBy es) := by rw [exec_precededBy, hu]; rfl
  obtain rfl : t = u.precededBy s.trace := Host.Outcome.next.inj (h.symm.trans (hexec s.trace))
  exact ⟨u.trace, rfl, hexec earlier⟩

/-- Settles O8: the two cases of MemRead. -/
theorem memReadOnlyTraces : Obligations.MemReadOnlyTraces :=
  fun s => ⟨fun r => s.memRead_reg r, s.draws.useDrWord, s.memRead_dr⟩

/-- Settles O9: a write replaces one word of the register file, and DR takes the low byte. -/
theorem memWriteThenRead : Obligations.MemWriteThenRead := by
  intro s v
  refine ⟨fun r => ⟨s.memWrite_reg_trace r v, s.memRead_memWrite_same r v,
    fun r' h => s.memRead_memWrite_other h v, s.memWrite_reg_txq r v⟩, s.memWrite_dr_trace v, ?_,
    s.memWrite_dr_regs v⟩
  rw [s.memWrite_dr_txq, drByte_eq_setWidth]

end Sys2Proof
end

section
/-! PROOF. The formats of the commands (R73): what it means that a field holds an operand narrower than itself, and
what the decoder answers for each operation number (R74, R76, R84). -/

namespace Sys2Proof

/-- The must-be-0 check of a format (R73) as a bound on the field: no bit from bit k up is set. -/
theorem highBits_eq_zero_iff_lt {k n : Nat} (h : k + n = 32) (w : Word) :
    w.extractLsb' k n = 0#n ↔ w.toNat < 2 ^ k := by
  have hquot : w.toNat / 2 ^ k < 2 ^ n := by
    rw [Nat.div_lt_iff_lt_mul (Nat.two_pow_pos k), ← Nat.pow_add, Nat.add_comm, h]
    exact w.isLt
  rw [← BitVec.toNat_inj, BitVec.extractLsb'_toNat, Nat.shiftRight_eq_div_pow, Nat.mod_eq_of_lt hquot]
  exact Nat.div_eq_zero_iff_lt (Nat.two_pow_pos k)

/-- The must-be-0 check of a format (R73) as a shift: nothing is left of the field. -/
theorem highBits_eq_zero_iff_shift {k n : Nat} (h : k + n = 32) (w : Word) :
    w.extractLsb' k n = 0#n ↔ w >>> k = 0#32 := by
  rw [highBits_eq_zero_iff_lt h, ← BitVec.toNat_inj, BitVec.toNat_ushiftRight, Nat.shiftRight_eq_div_pow]
  exact (Nat.div_eq_zero_iff_lt (Nat.two_pow_pos k)).symm

/-- A field holds an operand of k bits exactly if its other bits are 0 and its k low bits are the operand (R73). -/
theorem eq_setWidth_iff {k n : Nat} (h : k + n = 32) (w : Word) (x : BitVec k) :
    w = x.setWidth 32 ↔ w.extractLsb' k n = 0#n ∧ w.extractLsb' 0 k = x := by
  have hx : x.toNat < 2 ^ 32 := x.isLt.trans_le (Nat.pow_le_pow_right (by decide) (by omega))
  rw [highBits_eq_zero_iff_lt h, ← BitVec.toNat_inj, ← BitVec.toNat_inj, BitVec.extractLsb'_toNat,
    BitVec.toNat_setWidth, Nat.mod_eq_of_lt hx, Nat.shiftRight_zero]
  constructor
  · intro hw
    have hlt : w.toNat < 2 ^ k := hw ▸ x.isLt
    exact ⟨hlt, (Nat.mod_eq_of_lt hlt).trans hw⟩
  · rintro ⟨hlt, hlow⟩
    exact (Nat.mod_eq_of_lt hlt).symm.trans hlow

/-- A text that is the operand of TRANSMIT_TEXT has `a` bytes exactly if its length fits 32 bits and `a` is that length
(R73, F_TEXT). -/
theorem length_eq_and_eq_iff {given text : List Byte} {a : Word} :
    given.length = a.toNat ∧ given = text ↔
      text.length < 2 ^ 32 ∧ a = BitVec.ofNat 32 text.length ∧ given = text := by
  constructor
  · rintro ⟨hlen, rfl⟩
    exact ⟨hlen ▸ a.isLt, by simp [hlen], rfl⟩
  · rintro ⟨hlt, rfl, rfl⟩
    exact ⟨(Nat.mod_eq_of_lt hlt).symm, rfl⟩

section
variable {p : Prop} [Decidable p] {i j : Instr} {d : DecodeError}

/-- An arm of the decoder with a check answers its instruction if the check holds. -/
theorem checked_eq_ok_iff : (if p then .ok i else .error d : Except DecodeError Instr) = .ok j ↔ p ∧ i = j := by
  by_cases h : p <;> simp [h]

/-- An arm of the decoder with a check answers an error if the check fails. -/
theorem exists_checked_eq_error_iff :
    (∃ e, (if p then .ok i else .error d : Except DecodeError Instr) = .error e) ↔ ¬ p := by
  by_cases h : p <;> simp [h]

end

/-- A command decodes only to an instruction with its operation number (R74). -/
theorem opNumber_of_decode {c : PortCommand} {i : Instr} (h : decode c = .ok i) : c.op = i.opNumber := by
  unfold decode at h
  split at h
  case h_4 hop | h_5 hop | h_8 hop | h_9 hop =>
    obtain ⟨-, rfl⟩ := checked_eq_ok_iff.mp h
    exact hop
  case h_11 => cases h
  all_goals
    cases h
    assumption

/-- Once the operation number is that of `i`, the fields its format uses and, at TRANSMIT_TEXT, the text decide
whether the command decodes to `i` (R73, R84). -/
theorem decode_eq_ok_iff_of_op {c : PortCommand} {i : Instr} (h : c.op = i.opNumber) :
    decode c = .ok i ↔
      i.wf = true ∧ (i.usesA = true → c.a = i.fieldA) ∧ (i.usesB = true → c.b = i.fieldB) ∧
        (c.op = 0x8#4 → c.text = i.textBytes) := by
  unfold decode
  cases i with
  | setFunction pin code =>
    simp [h, Instr.opNumber, Instr.wf, Instr.usesA, Instr.fieldA, Instr.usesB, Instr.fieldB, checked_eq_ok_iff,
      eq_setWidth_iff (n := 29), and_left_comm]
  | setPullUpDown pin code =>
    simp [h, Instr.opNumber, Instr.wf, Instr.usesA, Instr.fieldA, Instr.usesB, Instr.fieldB, checked_eq_ok_iff,
      eq_setWidth_iff (n := 30), and_left_comm]
  | transmit byte =>
    simp [h, Instr.opNumber, Instr.wf, Instr.usesA, Instr.fieldA, Instr.usesB, checked_eq_ok_iff,
      eq_setWidth_iff (n := 24)]
  | transmitText text =>
    simpa [h, Instr.opNumber, Instr.wf, Instr.usesA, Instr.fieldA, Instr.usesB, Instr.textBytes, checked_eq_ok_iff]
      using length_eq_and_eq_iff
  | regRead _ | regWrite _ _ | pinConstruct _ | uartConstruct _ | uartInitialize _ | halt =>
    simp [h, Instr.opNumber, Instr.wf, Instr.usesA, Instr.fieldA, Instr.usesB, Instr.fieldB]

/-- The decoder refuses a command by its operation number, by a must-be-0 bit or by the length of its text (R76). -/
theorem exists_decode_eq_error_iff (c : PortCommand) :
    (∃ e, decode c = .error e) ↔
      0x9#4 < c.op ∨ (c.op = 0x3#4 ∧ c.b >>> 3 ≠ 0) ∨ (c.op = 0x4#4 ∧ c.b >>> 2 ≠ 0) ∨
        (c.op = 0x7#4 ∧ c.a >>> 8 ≠ 0) ∨ (c.op = 0x8#4 ∧ c.text.length ≠ c.a.toNat) := by
  unfold decode
  split
  case h_4 hop | h_5 hop | h_8 hop | h_9 hop =>
    rw [exists_checked_eq_error_iff]
    simp [hop, highBits_eq_zero_iff_shift]
  case h_11 =>
    have hop : 0x9#4 < c.op := by
      simp only [imp_false] at *
      bv_omega
    exact ⟨fun _ => .inl hop, fun _ => ⟨_, rfl⟩⟩
  all_goals
    next hop => simp [hop]

end Sys2Proof

namespace Sys2Proof.Machine

/-- The step of an accepting block whose next command does not decode (R76, log 25). -/
theorem step_illegal {s : State} {c : PortCommand} {rest : List PortCommand} {e : DecodeError} (hw : s.cfg.WfMap)
    (ha : s.accepts = true) (hp : s.port = c :: rest) (hd : decode c = .error e) :
    step s = .next ({ s.engine with port := rest }.raise (.illegalCommand c.cw)) := by
  rw [step, if_pos hw]
  simp [State.fetch, ha, hp, hd]

/-! ### A text byte by byte -/

theorem State.complete_of_idle {s : State} (h : s.Idle) : s.complete = s := by
  rw [State.complete, ← h]

/-- The DR write of an idle block takes no step of a command (R34). -/
theorem State.drWrite_idle {s : State} (h : s.Idle) (v : Word) : (s.drWrite v).Idle := by
  simp [State.drWrite_eq, State.Idle, h, Upc.next]

theorem State.transmitBytes_idle {s : State} (h : s.Idle) (text : List Byte) : (s.transmitBytes text).Idle := by
  induction text generalizing s with
  | nil => exact h
  | cons y ys ih =>
    cases hf : s.drFault y with
    | some f => simp [State.transmitBytes, hf, State.Idle]
    | none => simpa [State.transmitBytes, hf] using ih (State.drWrite_idle h (drWord y))

/-- From an idle block a text ends where its bytes lead: there is nothing left to complete. -/
theorem exec_transmitText_of_idle {s : State} (h : s.Idle) (text : List Byte) :
    exec (.transmitText text) s = .next (s.transmitBytes text) :=
  congrArg Host.Outcome.next (State.complete_of_idle (State.transmitBytes_idle h text))

/-- TRANSMIT of each byte in order, until one faults (R131), leads where the bytes lead as a text (42 R118). -/
theorem execList_transmit {s : State} (hfault : s.NoFault) (hidle : s.Idle) (text : List Byte) :
    execList (text.map .transmit) s = .next (s.transmitBytes text) := by
  induction text generalizing s with
  | nil => rfl
  | cons y ys ih =>
    simp only [List.map_cons, execList, exec_transmit_eq_text, exec_transmitText_of_idle hidle, State.transmitBytes]
    cases hf : s.drFault y with
    | some f => simp
    | none =>
      have hfault' : (s.drWrite (drWord y)).NoFault := hfault
      rw [if_pos hfault', ih hfault' (State.drWrite_idle hidle (drWord y))]

end Sys2Proof.Machine
end

section
/-! PROOF. The statements of 30_encoding.md. -/

namespace Sys2Proof

open Sys2Proof.Machine

/-- Settles O1: the operation number has to be that of the instruction, and then the fields and the text decide. -/
theorem decodeFollowsTheFormats : Obligations.DecodeFollowsTheFormats := by
  intro c i
  constructor
  · intro h
    have hop : c.op = i.opNumber := opNumber_of_decode h
    obtain ⟨hwf, hfields⟩ := (decode_eq_ok_iff_of_op hop).mp h
    exact ⟨hwf, hop, hfields⟩
  · rintro ⟨hwf, hop, hfields⟩
    exact (decode_eq_ok_iff_of_op hop).mpr ⟨hwf, hfields⟩

/-- Settles O2: the encoder writes every field and the text as the formats ask (`decodeFollowsTheFormats`). -/
theorem decodeOfEncode : Obligations.DecodeOfEncode := fun i hwf =>
  (decodeFollowsTheFormats (encode i) i).mpr
    ⟨hwf, encode_op i, fun _ => encode_a i, fun _ => encode_b i, fun _ => encode_text i⟩

/-- Settles O4: the arms of the decoder that answer an error, and the step of a block that takes such a command. The
block was idle when it accepted, so ending the command leaves `upc` as it was. -/
theorem illegalCommandsFault : Obligations.IllegalCommandsFault := by
  refine ⟨exists_decode_eq_error_iff, fun s c rest e hw ha hp hd => ?_⟩
  obtain ⟨-, -, hidle⟩ := State.accepts_iff.mp ha
  have hupc : s.engine.upc = .idle := s.engine_upc.trans hidle
  rw [step_illegal hw ha hp hd, State.raise, ← hupc]

/-- Settles O6: both sides lead where the bytes of the text lead. -/
theorem transmitTextIsRepeatedTransmit : Obligations.TransmitTextIsRepeatedTransmit := fun _ text hfault hidle =>
  (exec_transmitText_of_idle hidle text).trans (execList_transmit hfault hidle text).symm

/-- Settles O3: the ten words are fixed, and the decoder runs on each. -/
theorem specWordsDecode : Obligations.SpecWordsDecode := by
  unfold Obligations.SpecWordsDecode
  decide

/-- Settles O5: the tables and their inverses, entry by entry. -/
theorem codeTablesAreBijections : Obligations.CodeTablesAreBijections :=
  ⟨PinFunction.ofCode_code, PinFunction.code_ofCode, PullVariant.ofCode_code,
    fun _ => ⟨PullVariant.ofCode_eq_none_iff, fun _ => PullVariant.code_of_ofCode⟩⟩

end Sys2Proof
end

section
/-! PROOF. What REG_READ and REG_WRITE do, at each kind of location (40_register_accessor.md R86 to R89), and the
shape of what a command traces (R103, R121). -/

namespace Sys2Proof.Machine

/-! ### The accessor at a backed address -/

/-- REG_READ at the address of a location reads it and responds (R86). -/
theorem exec_regRead_addr {s : State} (hw : s.cfg.WfMap) (l : Location) :
    exec (.regRead (s.cfg.addr l)) s = .next ((s.memRead l).2.respond (s.memRead l).1).complete := by
  simp only [exec, execRegRead, Board.locate_addr hw]

/-- REG_WRITE at the address of a register writes it and has the effect of a raw write (R87). -/
theorem exec_regWrite_addr {s : State} (hw : s.cfg.WfMap) (r : Reg) (v : Word) :
    exec (.regWrite (s.cfg.addr (.reg r)) v) s = .next ((s.memWrite (.reg r) v).rawWriteEffect r).complete := by
  simp only [exec, execRegWrite, Board.locate_addr hw]

/-- REG_WRITE at A_DR raises what the checks of a DR write raise (R89 (b)). -/
theorem exec_regWrite_dr_of_fault {s : State} (hw : s.cfg.WfMap) {v : Word} {f : Fault}
    (hf : s.drFault (drByte v) = some f) : exec (.regWrite (s.cfg.addr .dr) v) s = .next (s.raise f) := by
  simp only [exec, execRegWrite, Board.locate_addr hw, hf]

/-- REG_WRITE at A_DR is a DR write of the whole word when the checks pass (R89 (b)). -/
theorem exec_regWrite_dr {s : State} (hw : s.cfg.WfMap) {v : Word} (hf : s.drFault (drByte v) = none) :
    exec (.regWrite (s.cfg.addr .dr) v) s = .next (s.drWrite v).complete := by
  simp only [exec, execRegWrite, Board.locate_addr hw, hf]

/-! ### The accessor at any address -/

/-- What REG_READ can do (R86). -/
theorem exec_regRead_cases {addr : Word} {s t : State} (h : exec (.regRead addr) s = .next t) :
    t = s.raise (.unbackedAddress addr) ∨
      ∃ l, s.cfg.addr l = addr ∧ t = ((s.memRead l).2.respond (s.memRead l).1).complete := by
  simp only [exec, execRegRead] at h
  split at h <;> cases h
  next => exact .inl rfl
  next l hl => exact .inr ⟨l, Board.addr_of_locate hl, rfl⟩

/-- What REG_WRITE can do (R87, R89 (b)). -/
theorem exec_regWrite_cases {addr v : Word} {s t : State} (h : exec (.regWrite addr v) s = .next t) :
    (∃ f, t = s.raise f) ∨
      (∃ r, s.cfg.addr (.reg r) = addr ∧ t = ((s.memWrite (.reg r) v).rawWriteEffect r).complete) ∨
      (s.cfg.addr .dr = addr ∧ t = (s.drWrite v).complete) := by
  simp only [exec, execRegWrite] at h
  split at h
  next =>
    cases h
    exact .inl ⟨_, rfl⟩
  next hl =>
    split at h <;> cases h
    · exact .inl ⟨_, rfl⟩
    · exact .inr (.inr ⟨Board.addr_of_locate hl, rfl⟩)
  next r hl =>
    cases h
    exact .inr (.inl ⟨r, Board.addr_of_locate hl, rfl⟩)

/-! ### The effect of a raw write -/

/-- A raw write to IBRD, FBRD, LCRH or CR makes `uart_state` Uninitialized, and beyond that touches at most the queue
and the draws (R89 (a)). -/
theorem State.rawWriteEffect_of_uart {r : Reg} (hr : r = .ibrd ∨ r = .fbrd ∨ r = .lcrh ∨ r = .cr) (s : State) :
    s.rawWriteEffect r =
      { s with
        uart := .uninitialized
        txq := (s.rawWriteEffect r).txq
        draws := (s.rawWriteEffect r).draws } := by
  rcases hr with rfl | rfl | rfl | rfl
  case inr.inr.inr =>
    simp only [State.rawWriteEffect, State.setUart]
    rw [s.disturbQueue_eq]
  all_goals rfl

/-- Only a write of CR disturbs the queue, and only one that holds bytes (42 R113). -/
theorem State.rawWriteEffect_keeps_queue {r : Reg} {s : State} (h : r ≠ .cr ∨ s.txq = []) :
    (s.rawWriteEffect r).txq = s.txq ∧ (s.rawWriteEffect r).draws = s.draws := by
  cases r with
  | cr =>
    have hempty : s.txq = [] := h.resolve_left (fun hne => hne rfl)
    simp [State.rawWriteEffect, State.disturbQueue, hempty]
  | _ => exact ⟨rfl, rfl⟩

/-! ### A DR write that passed its checks -/

/-- The byte follows all bytes queued or sent before, wherever the engine has moved those (log 2). -/
theorem State.drWrite_bytes (v : Word) (s : State) :
    (s.drWrite v).txOut ++ (s.drWrite v).txq = s.txOut ++ s.txq ++ [drByte v] := by
  simp only [State.drWrite_eq, List.append_assoc]
  rw [← List.append_assoc (List.take _ _), List.take_append_drop]

theorem State.drWrite_txq_getLast? (v : Word) (s : State) : (s.drWrite v).txq.getLast? = some (drByte v) := by
  simp [State.drWrite_eq]

/-- With room in the queue no byte has to leave it (log 2). -/
theorem State.drWrite_txq_of_room {s : State} (h : s.txq.length < s.cfg.fifoDepth) (v : Word) :
    (s.drWrite v).txq = s.txq ++ [drByte v] := by
  have hout : s.txq.length + 1 - s.cfg.fifoDepth = 0 := by omega
  simp [State.drWrite_eq, hout]

/-! ### The function output of a pin -/

/-- On a valid pin of FSEL[n] the function output is the decode of its field of that register (R35). -/
theorem State.pinFn_eq {p : Nat} {n : Fin 6} (hp : p ≤ 53) (hn : p / 10 = n.val) (s : State) :
    s.pinFn p = PinFunction.ofCode (fieldOf (s.regs.read (.fsel n)) p) := by
  obtain rfl : fselIndex p = n := Fin.ext ((fselIndex_val hp).trans hn)
  rfl

/-! ### The frame of REG_WRITE -/

section
variable {addr v : Word} {s t : State} (h : exec (.regWrite addr v) s = .next t)
include h

/-- REG_WRITE leaves the configuration, `halted`, the working registers, the delay counter, `rdata` and the port. -/
theorem exec_regWrite_eq :
    t = { s with
      regs := t.regs
      uart := t.uart
      fault := t.fault
      upc := t.upc
      pull := t.pull
      txq := t.txq
      txOut := t.txOut
      trace := t.trace
      draws := t.draws } := by
  rcases exec_regWrite_cases h with ⟨f, rfl⟩ | ⟨r, -, rfl⟩ | ⟨-, rfl⟩
  · rfl
  · rw [State.rawWriteEffect_eq]
    rfl
  · rfl

/-- A register at another address reads as before. -/
theorem exec_regWrite_read_other {r : Reg} (hr : s.cfg.addr (.reg r) ≠ addr) : t.regs.read r = s.regs.read r := by
  rcases exec_regWrite_cases h with ⟨f, rfl⟩ | ⟨r', rfl, rfl⟩ | ⟨-, rfl⟩
  · rfl
  · have hne : r ≠ r' := fun e => hr (e ▸ rfl)
    simp [hne]
  · rfl

/-- The latch of a pin is kept unless a pull or clock register of its chain is addressed (R88). -/
theorem exec_regWrite_pull {p : Fin 54} (hp : ∀ k : Fin 2, k.val = p.val / 32 →
    s.cfg.addr (.reg (.pud k)) ≠ addr ∧ s.cfg.addr (.reg (.pudclk k)) ≠ addr) : t.pull[p] = s.pull[p] := by
  by_contra hne
  rcases exec_pull_ne h hne with ⟨_, _, hi, -⟩ | ⟨k, _, hk, hi | hi⟩
  · cases hi
  · exact (hp k hk).1 (Instr.regWrite.inj hi).1.symm
  · exact (hp k hk).2 (Instr.regWrite.inj hi).1.symm

/-- `uart_state` is kept unless IBRD, FBRD, LCRH or CR is addressed (R89 (a)). -/
theorem exec_regWrite_uart (hr : ∀ r ∈ [Reg.ibrd, .fbrd, .lcrh, .cr], s.cfg.addr (.reg r) ≠ addr) :
    t.uart = s.uart := by
  rcases exec_uart_cases h with hsame | ⟨-, -, _, hi, -⟩ | ⟨-, r, hmem, _, hi⟩
  · exact hsame.uart
  · cases hi
  · exact absurd (Instr.regWrite.inj hi).1.symm (hr r hmem)

/-- The output is kept unless DR is addressed. -/
theorem exec_regWrite_txOut (hdr : s.cfg.addr .dr ≠ addr) : t.txOut = s.txOut := by
  rcases exec_regWrite_cases h with ⟨f, rfl⟩ | ⟨r, -, rfl⟩ | ⟨e, -⟩
  · rfl
  · simp
  · exact absurd e hdr

/-- The queue and the draws are kept unless DR or CR is addressed. -/
theorem exec_regWrite_queue (hdr : s.cfg.addr .dr ≠ addr) (hcr : s.cfg.addr (.reg .cr) ≠ addr) :
    t.txq = s.txq ∧ t.draws = s.draws := by
  rcases exec_regWrite_cases h with ⟨f, rfl⟩ | ⟨r, rfl, rfl⟩ | ⟨e, -⟩
  · exact ⟨rfl, rfl⟩
  · have hr : r ≠ .cr := fun e => hcr (e ▸ rfl)
    exact State.rawWriteEffect_keeps_queue (s := s.memWrite (.reg r) v) (.inl hr)
  · exact absurd e hdr

end

/-! ### The shape of what a command traces -/

/-- A command that raised a fault has not ended without one (60 R131). -/
theorem State.not_noFault_raise (f : Fault) (s : State) : ¬ (s.raise f).NoFault := nofun

/-- The DR writes of a text are one write for each byte (42 R121). -/
theorem traceShape_writeEvents (c : Board) (bytes : List Byte) :
    traceShape (writeEvents c bytes) = ⟨0, bytes.length, 0⟩ := by
  induction bytes with
  | nil => rfl
  | cons y ys ih =>
    have hcons : writeEvents c (y :: ys) = .wr (c.addr .dr) (drWord y) :: writeEvents c ys := rfl
    simp [hcons, traceShape, Event.shape, ih, Nat.add_comm]

/-- A text whose checks all pass traces one write for each of its bytes (42 R118). -/
theorem exec_transmitText_traceShape {bytes : List Byte} {s t : State} (h : exec (.transmitText bytes) s = .next t)
    (ht : t.NoFault) : ∃ es, t.trace = s.trace ++ es ∧ traceShape es = ⟨0, bytes.length, 0⟩ := by
  cases h
  obtain ⟨pre, post, hsplit, htrace, -, -, hend⟩ := s.transmitBytes_spec bytes
  rcases hend with ⟨rfl, -⟩ | ⟨_, _, -, -, hfault⟩
  · obtain rfl : bytes = pre := by simpa using hsplit
    exact ⟨_, htrace, traceShape_writeEvents _ _⟩
  · exact absurd ht hfault

/-- A command that ends without a fault has gone the one way on which its events are those of the tables. -/
theorem exec_traceShape {i : Instr} {s t : State} (h : exec i s = .next t) (ht : t.NoFault) :
    ∃ es, t.trace = s.trace ++ es ∧ traceShape es = commandShape i := by
  cases i with
  | regRead addr =>
    rcases exec_regRead_cases h with rfl | ⟨l, -, rfl⟩
    · exact absurd ht (s.not_noFault_raise _)
    · exact ⟨_, s.memRead_trace l, rfl⟩
  | regWrite addr v =>
    rcases exec_regWrite_cases h with ⟨f, rfl⟩ | ⟨r, -, rfl⟩ | ⟨-, rfl⟩
    · exact absurd ht (s.not_noFault_raise f)
    · exact ⟨_, State.rawWriteEffect_trace r _, rfl⟩
    · exact ⟨[.wr (s.cfg.addr .dr) v], rfl, rfl⟩
  | pinConstruct pin =>
    cases h
    exact ⟨[], by simp, rfl⟩
  | setFunction pin code =>
    rcases exec_setFunction_cases h with ⟨-, rfl⟩ | ⟨-, rfl⟩
    · exact ⟨_, by rw [State.complete_trace, State.setField_eq], rfl⟩
    · exact absurd ht (s.not_noFault_raise _)
  | setPullUpDown pin code =>
    rcases exec_setPullUpDown_cases h with ⟨v, -, -, rfl⟩ | rfl | rfl
    · exact ⟨_, by rw [State.complete_trace, State.pullHandshake_eq], rfl⟩
    · exact absurd ht (s.not_noFault_raise _)
    · exact absurd ht (s.not_noFault_raise _)
  | uartConstruct base =>
    simp only [exec, execUartConstruct] at h
    split at h <;> cases h
    · exact ⟨[], by simp, rfl⟩
    · exact absurd ht (s.not_noFault_raise _)
  | uartInitialize baud =>
    simp only [exec, execUartInitialize] at h
    split at h <;> cases h
    · exact ⟨_, by rw [State.complete_trace, State.uartSequence_eq], rfl⟩
    · exact absurd ht (s.not_noFault_raise _)
  | transmit y => exact exec_transmitText_traceShape ((exec_transmit_eq_text y s).symm.trans h) ht
  | transmitText bytes => exact exec_transmitText_traceShape h ht
  | halt =>
    cases h
    exact ⟨[], by simp, rfl⟩

end Sys2Proof.Machine
end

section
/-! PROOF. The statements of 40_register_accessor.md. -/

namespace Sys2Proof

open Sys2Proof.Machine

/-- Settles O13: such a step performs no command, either because the block does not accept one or because none is
waiting. -/
theorem noCommandUnlessAccepting : Obligations.NoCommandUnlessAccepting := by
  intro s hw h
  obtain ⟨t, ht⟩ := step_next hw
  have hnone : s.accepts = false ∨ s.port = [] := by
    rw [← Bool.not_eq_true, State.accepts_iff]
    rcases h with hhalted | hfault | hbusy | hport
    · exact .inl fun ⟨_, hh, _⟩ => absurd (hhalted.symm.trans hh) (by decide)
    · exact .inl fun ⟨hf, _, _⟩ => hfault hf
    · exact .inl fun ⟨_, _, hi⟩ => hbusy hi
    · exact .inr hport
  rw [ht]
  rcases hnone with ha | hp
  · rw [step_of_not_accepts ha ht]
  · rw [step_port_nil hp ht]

/-- Settles O22: FSEL[n] reads back as the word, whose fields are those of its pins. -/
theorem regWriteOfFunctionSelect : Obligations.RegWriteOfFunctionSelect := by
  intro s n v hw
  refine ⟨_, exec_regWrite_addr hw (.fsel n) v, rfl, fun p hp hn => ?_⟩
  have hread : (s.regs.write (.fsel n) v).read (.fsel n) = v := RegFile.read_write_same _ _ _
  exact (State.pinFn_eq hp hn _).trans (congrArg (fun w => PinFunction.ofCode (fieldOf w p)) hread)

/-- Settles O23: both registers of a chain disturb the latches of that chain. -/
theorem regWriteOfPullRegisters : Obligations.RegWriteOfPullRegisters := by
  intro s k r v hw hr
  refine ⟨(s.disturbChain k).pull, fun p => by simp, ?_⟩
  rcases hr with rfl | rfl
  · exact exec_regWrite_addr hw (.pud k) v
  · exact exec_regWrite_addr hw (.pudclk k) v

/-- Settles O24: the queue and the draws are those the raw write leaves. -/
theorem regWriteOfUartRegisters : Obligations.RegWriteOfUartRegisters := by
  intro s r v hw hr
  let u := s.memWrite (.reg r) v
  refine ⟨(u.rawWriteEffect r).txq, (u.rawWriteEffect r).draws, u.rawWriteEffect_length_le r,
    u.rawWriteEffect_keeps_queue, ?_⟩
  rw [exec_regWrite_addr hw, u.rawWriteEffect_of_uart hr]
  rfl

/-- Settles O25: the two checks in their order, then the DR write. -/
theorem regWriteOfTheDataRegister : Obligations.RegWriteOfTheDataRegister := by
  intro s v hw
  rw [← drByte_eq_setWidth]
  refine ⟨fun hu => ?_, fun hu hfull => ?_, fun hu hroom => ?_⟩
  · exact exec_regWrite_dr_of_fault hw (State.drFault_uninitialized hu)
  · exact exec_regWrite_dr_of_fault hw (State.drFault_full hu hfull)
  · exact ⟨_, exec_regWrite_dr hw (State.drFault_eq_none.mpr ⟨hu, hroom⟩), s.drWrite_bytes v,
      s.drWrite_txq_getLast? v, fun hlt => State.drWrite_txq_of_room hlt v, rfl⟩

/-- Settles O26: a read leaves all but its five fields alone on either path, and of a write each clause is a frame
lemma of its own. -/
theorem accessorFrame : Obligations.AccessorFrame := by
  refine ⟨fun s t addr h => ?_, fun s t addr v h => ?_⟩
  · rcases exec_regRead_cases h with rfl | ⟨_ | _, -, rfl⟩ <;> rfl
  · have hkept : t.cfg = s.cfg ∧ t.halted = s.halted ∧ t.a = s.a ∧ t.b = s.b ∧ t.t = s.t ∧ t.dly = s.dly ∧
        t.rdata = s.rdata ∧ t.port = s.port := by
      rw [exec_regWrite_eq h]
      exact ⟨rfl, rfl, rfl, rfl, rfl, rfl, rfl, rfl⟩
    obtain ⟨hcfg, hhalted, ha, hb, ht, hdly, hrdata, hport⟩ := hkept
    exact ⟨hcfg, hhalted, ha, hb, ht, hdly, hrdata, hport, fun _ => exec_regWrite_read_other h,
      fun _ => exec_regWrite_pull h, exec_regWrite_uart h, exec_regWrite_txOut h, exec_regWrite_queue h⟩

/-- Settles O47: whether the state before held a fault does not matter. -/
theorem traceShapesOfCommands : Obligations.TraceShapesOfCommands :=
  fun _ _ _ _ h ht => exec_traceShape h ht

/-- Settles O12: acceptance loads the command, every command answers a next state, and the engine moves last. -/
theorem stepRunsTheDecodedCommand : Obligations.StepRunsTheDecodedCommand := by
  intro s c rest i hw hf hh hidle hp hd
  obtain ⟨t, ht⟩ := exec_next i ({ s.engine with port := rest }.load c)
  have hstep := step_command hw (State.accepts_iff.mpr ⟨hf, hh, hidle⟩) hp hd
  exact ⟨t, ht, by rw [hstep, ht, thenEngine_next]⟩

/-- Settles O19: what `memRead` answers at a register goes to `rdata`. -/
theorem regReadOfARegister : Obligations.RegReadOfARegister :=
  fun _ r hw => exec_regRead_addr hw (.reg r)

/-- Settles O20: what `memRead` answers at DR goes to `rdata`. -/
theorem regReadOfTheDataRegister : Obligations.RegReadOfTheDataRegister :=
  fun _ hw => exec_regRead_addr hw .dr

end Sys2Proof
end

section
/-! PROOF. The pin controller: the function field of a pin in a word (30_encoding.md R65), and what SET_FUNCTION and
SET_PULL_UP_DOWN do on each of their paths (41_pin_controller.md R92, R94, R98). -/

namespace Sys2Proof

/-- Whatever text stands beside it, the encoded word of a command other than TRANSMIT_TEXT decodes to that command
(R73, R84). -/
theorem decode_encode_withText {i : Instr} (hwf : i.wf = true) (hop : i.opNumber ≠ 0x8#4) (text : List Byte) :
    decode { encode i with text := text } = .ok i := by
  have heq : { encode i with text := text }.op = i.opNumber := encode_op i
  exact (decode_eq_ok_iff_of_op heq).mpr
    ⟨hwf, fun _ => encode_a i, fun _ => encode_b i, fun h => absurd (heq.symm.trans h) hop⟩

/-- SET_FUNCTION and SET_PULL_UP_DOWN are refused when a bit above their code is set (R73, R76). -/
theorem decode_mustBeZero {c : PortCommand}
    (h : (c.op = 0x3#4 ∧ c.b >>> 3 ≠ 0#32) ∨ (c.op = 0x4#4 ∧ c.b >>> 2 ≠ 0#32)) :
    decode c = .error .mustBeZero := by
  rcases h with ⟨hop, hb⟩ | ⟨hop, hb⟩
  · simp [decode, hop, highBits_eq_zero_iff_shift, hb]
  · simp [decode, hop, highBits_eq_zero_iff_shift, hb]

end Sys2Proof

namespace Sys2Proof.Machine

/-! ### The function field of a pin -/

/-- The ten fields of a word end at bit 29 (R65). -/
theorem fieldOffset_le (p : Nat) : fieldOffset p ≤ 27 := by
  unfold fieldOffset
  omega

/-- Two pins of one FSEL register whose fields are not the same have disjoint fields (R65). -/
theorem fieldOffset_disjoint {p q : Nat} (h : p % 10 ≠ q % 10) :
    fieldOffset q + 3 ≤ fieldOffset p ∨ fieldOffset p + 3 ≤ fieldOffset q := by
  unfold fieldOffset
  omega

/-- The mask of a pin has ones exactly in its field (R65). -/
theorem getLsbD_fieldMask (p i : Nat) :
    (fieldMask p).getLsbD i = decide (fieldOffset p ≤ i ∧ i < fieldOffset p + 3) := by
  have hoff := fieldOffset_le p
  have hones : 0b111#32 = (BitVec.allOnes 3).setWidth 32 := by decide
  simp only [fieldMask, hones, BitVec.getLsbD_shiftLeft, BitVec.getLsbD_setWidth, BitVec.getLsbD_allOnes]
  grind

/-- `withField` bit by bit: the code in the field of the pin, the old word outside it (41 R94, R95). -/
theorem getLsbD_withField (word : Word) (p : Nat) (code : BitVec 3) (i : Nat) :
    (withField word p code).getLsbD i =
      if fieldOffset p ≤ i ∧ i < fieldOffset p + 3 then code.getLsbD (i - fieldOffset p) else word.getLsbD i := by
  have hoff := fieldOffset_le p
  simp only [withField, BitVec.getLsbD_or, BitVec.getLsbD_and, BitVec.getLsbD_not, getLsbD_fieldMask,
    BitVec.getLsbD_shiftLeft, BitVec.getLsbD_setWidth]
  split
  next hin =>
    have hge : ¬ i < fieldOffset p := by omega
    have h32 : i < 32 := by omega
    have hlow : i - fieldOffset p < 32 := by omega
    simp [hin, hge, h32, hlow]
  next hout =>
    have h32 : word.getLsbD i = true → i < 32 := BitVec.lt_of_getLsbD
    by_cases hlt : i < fieldOffset p
    · simpa [hout, hlt] using h32
    · have hzero : code.getLsbD (i - fieldOffset p) = false := BitVec.getLsbD_of_ge _ _ (by omega)
      simpa [hout, hzero] using h32

/-- Bit i of the field of a pin is bit s + i of the word (R16). -/
theorem getLsbD_fieldOf (word : Word) (p i : Nat) :
    (fieldOf word p).getLsbD i = (decide (i < 3) && word.getLsbD (fieldOffset p + i)) :=
  BitVec.getLsbD_extractLsb' ..

/-- The field of the pin holds the code that was written to it. -/
@[simp] theorem fieldOf_withField_same (word : Word) (p : Nat) (code : BitVec 3) :
    fieldOf (withField word p code) p = code := by
  apply BitVec.eq_of_getLsbD_eq
  intro i hi
  rw [getLsbD_fieldOf, getLsbD_withField, if_pos (by omega)]
  simp [hi]

/-- The field of another pin of the same register is kept (R95). -/
theorem fieldOf_withField_other {p q : Nat} (h : p % 10 ≠ q % 10) (word : Word) (code : BitVec 3) :
    fieldOf (withField word p code) q = fieldOf word q := by
  have hdisj := fieldOffset_disjoint h
  apply BitVec.eq_of_getLsbD_eq
  intro i hi
  have hout : ¬ (fieldOffset p ≤ fieldOffset q + i ∧ fieldOffset q + i < fieldOffset p + 3) := by omega
  rw [getLsbD_fieldOf, getLsbD_fieldOf, getLsbD_withField, if_neg hout]

/-- Outside the field of the pin nothing changes (R95). -/
theorem withField_and_not_fieldMask (word : Word) (p : Nat) (code : BitVec 3) :
    withField word p code &&& ~~~(fieldMask p) = word &&& ~~~(fieldMask p) := by
  apply BitVec.eq_of_getLsbD_eq
  intro i _
  simp only [BitVec.getLsbD_and, BitVec.getLsbD_not, getLsbD_withField, getLsbD_fieldMask]
  split
  next hin => simp [hin]
  next => rfl

/-- The code written last to a field is the one that stays (R96). -/
@[simp] theorem withField_withField (word : Word) (p : Nat) (code code' : BitVec 3) :
    withField (withField word p code) p code' = withField word p code' := by
  rw [withField, withField_and_not_fieldMask, withField]

/-! ### SET_FUNCTION -/

section
variable {pin : Word} {code : BitVec 3} {n : Fin 6}

/-- On a valid pin, and with n its FSEL index, SET_FUNCTION is the read-modify-write of FSEL[n] (R94). -/
theorem exec_setFunction_valid (hp : pin.toNat ≤ 53) (hn : n.val = pin.toNat / 10) (s : State) :
    exec (.setFunction pin code) s =
      .next { s with
        t := s.regs.read (.fsel n)
        regs := s.regs.write (.fsel n) (withField (s.regs.read (.fsel n)) pin.toNat code)
        trace := s.trace ++
          [.rd (s.cfg.addr (.reg (.fsel n))) (s.regs.read (.fsel n)),
            .wr (s.cfg.addr (.reg (.fsel n))) (withField (s.regs.read (.fsel n)) pin.toNat code)]
        upc := .idle } := by
  obtain rfl : n = fselIndex pin.toNat := Fin.ext (hn.trans (fselIndex_val hp).symm)
  simp only [exec, execSetFunction, if_pos (pinValid_iff.mpr hp), State.setField_eq, State.complete]

/-- SET_FUNCTION writes one register, FSEL[n], in the field of its pin (R94). -/
theorem exec_setFunction_regs (hp : pin.toNat ≤ 53) (hn : n.val = pin.toNat / 10) {s t : State}
    (h : exec (.setFunction pin code) s = .next t) :
    t.regs = s.regs.write (.fsel n) (withField (s.regs.read (.fsel n)) pin.toNat code) := by
  cases (exec_setFunction_valid hp hn s).symm.trans h
  rfl

/-- The two events of SET_FUNCTION: the word read is the old one, the word written is the one FSEL[n] then holds. -/
theorem exec_setFunction_trace (hp : pin.toNat ≤ 53) (hn : n.val = pin.toNat / 10) {s t : State}
    (h : exec (.setFunction pin code) s = .next t) :
    t.trace = s.trace ++
      [.rd (s.cfg.addr (.reg (.fsel n))) (s.regs.read (.fsel n)),
        .wr (s.cfg.addr (.reg (.fsel n))) (t.regs.read (.fsel n))] := by
  cases (exec_setFunction_valid hp hn s).symm.trans h
  rw [RegFile.read_write_same]

/-- On an invalid pin SET_FUNCTION only raises the fault (R92, R94). -/
theorem exec_setFunction_invalid (hp : 53 < pin.toNat) (s : State) :
    exec (.setFunction pin code) s = .next (s.raise (.invalidPinIdentifier pin)) := by
  simp only [exec, execSetFunction, pinValid_eq_false_iff.mpr hp, Bool.false_eq_true, if_false]

/-- After the field of pin p was written, the function output of p is the decode of the code (R35, R94). -/
theorem State.pinFn_of_withField_same {p : Nat} {s t : State} (hp : p ≤ 53) (hn : n.val = p / 10)
    (ht : t.regs = s.regs.write (.fsel n) (withField (s.regs.read (.fsel n)) p code)) :
    t.pinFn p = PinFunction.ofCode code := by
  rw [State.pinFn_eq hp hn.symm, ht, RegFile.read_write_same, fieldOf_withField_same]

/-- After the field of pin p was written, the function output of any other pin is as before: its field is in another
register or elsewhere in this one (R35, R94). -/
theorem State.pinFn_of_withField_other {p q : Nat} {s t : State} (hn : n.val = p / 10) (hq : q ≤ 53) (hne : q ≠ p)
    (ht : t.regs = s.regs.write (.fsel n) (withField (s.regs.read (.fsel n)) p code)) :
    t.pinFn q = s.pinFn q := by
  have hindex := fselIndex_val hq
  by_cases h : fselIndex q = n
  · subst h
    have hfield : p % 10 ≠ q % 10 := by omega
    simp only [State.pinFn, ht, RegFile.read_write_same, fieldOf_withField_other hfield]
  · have hreg : Reg.fsel (fselIndex q) ≠ .fsel n := fun e => h (Reg.fsel.inj e)
    simp only [State.pinFn, ht, RegFile.read_write_other _ _ hreg]

end

/-! ### SET_PULL_UP_DOWN -/

section
variable {pin : Word} {code : BitVec 2}

/-- On a valid pin with the code of a variant SET_PULL_UP_DOWN is the handshake (R98). -/
theorem exec_setPullUpDown_valid {v : PullVariant} (hp : pin.toNat ≤ 53) (hv : PullVariant.ofCode code = some v)
    (s : State) : exec (.setPullUpDown pin code) s = .next (s.pullHandshake pin.toNat v).complete := by
  simp only [exec, execSetPullUpDown, if_pos (pinValid_iff.mpr hp), hv]

/-- On an invalid pin SET_PULL_UP_DOWN only raises the fault, whatever the code (R92, R98). -/
theorem exec_setPullUpDown_invalid (hp : 53 < pin.toNat) (s : State) :
    exec (.setPullUpDown pin code) s = .next (s.raise (.invalidPinIdentifier pin)) := by
  simp only [exec, execSetPullUpDown, pinValid_eq_false_iff.mpr hp, Bool.false_eq_true, if_false]

/-- On a valid pin with a code that names no variant SET_PULL_UP_DOWN only raises the fault (R98). -/
theorem exec_setPullUpDown_reserved (hp : pin.toNat ≤ 53) (hcode : PullVariant.ofCode code = none) (s : State) :
    exec (.setPullUpDown pin code) s = .next (s.raise (.reservedCode code)) := by
  simp only [exec, execSetPullUpDown, if_pos (pinValid_iff.mpr hp), hcode]

end

/-! ### The frame of the pin commands -/

/-- SET_FUNCTION writes at most T and the FSEL registers, apart from how it ends and its trace. -/
theorem exec_setFunction_eq {pin : Word} {code : BitVec 3} {s t : State}
    (h : exec (.setFunction pin code) s = .next t) :
    t = { s with
      regs := { s.regs with fsel := t.regs.fsel }
      fault := t.fault
      upc := t.upc
      t := t.t
      trace := t.trace } := by
  rcases exec_setFunction_cases h with ⟨-, rfl⟩ | ⟨-, rfl⟩
  · rw [State.setField_eq]
    rfl
  · rfl

/-- SET_PULL_UP_DOWN writes at most the pull latches, the delay counter and the registers PUD and PUDCLK, apart from
how it ends and its trace. -/
theorem exec_setPullUpDown_eq {pin : Word} {code : BitVec 2} {s t : State}
    (h : exec (.setPullUpDown pin code) s = .next t) :
    t = { s with
      regs := { s.regs with pud := t.regs.pud, pudclk := t.regs.pudclk }
      fault := t.fault
      upc := t.upc
      pull := t.pull
      dly := t.dly
      trace := t.trace } := by
  rcases exec_setPullUpDown_cases h with ⟨v, -, -, rfl⟩ | rfl | rfl
  · rw [State.pullHandshake_eq]
    rfl
  · rfl
  · rfl

/-- SET_FUNCTION keeps every FSEL register but that of its pin (R95). -/
theorem exec_setFunction_fsel_other {pin : Word} {code : BitVec 3} {s t : State} {n : Fin 6}
    (h : exec (.setFunction pin code) s = .next t) (hn : n.val ≠ pin.toNat / 10) :
    t.regs.read (.fsel n) = s.regs.read (.fsel n) := by
  by_contra hne
  rcases exec_fsel_ne h hne with ⟨_, _, hi, hpin⟩ | ⟨_, hi⟩
  · exact hn ((Instr.setFunction.inj hi).1 ▸ hpin.symm)
  · cases hi

end Sys2Proof.Machine
end

section
/-! PROOF. The statements of 41_pin_controller.md. -/

namespace Sys2Proof

open Sys2Proof.Machine

/-- Settles O27: PIN_CONSTRUCT does no more than complete. -/
theorem pinConstructTouchesNothing : Obligations.PinConstructTouchesNothing :=
  fun _ _ => rfl

/-- Settles O28: the decoder at operation number 3, then the command on a valid and on an invalid pin. -/
theorem setFunctionReadsModifiesWrites : Obligations.SetFunctionReadsModifiesWrites := by
  refine ⟨fun pin code text => ?_, fun pin b text hb => ?_, fun s pin code n hp hn => ?_, fun s pin code hp => ?_⟩
  · exact decode_encode_withText (i := .setFunction pin code) rfl (by simp [Instr.opNumber]) text
  · exact decode_mustBeZero (.inl ⟨commandWord_op _ _ _, by rwa [PortCommand.b, commandWord_b]⟩)
  · exact ⟨_, exec_setFunction_valid hp hn s, rfl, State.pinFn_of_withField_same hp hn rfl,
      fun q hq hne => State.pinFn_of_withField_other hn hq hne rfl⟩
  · exact exec_setFunction_invalid hp s

/-- Settles O29: the word written back is the old one outside the field, and the code inside. -/
theorem setFunctionPreservesOtherBits : Obligations.SetFunctionPreservesOtherBits := by
  intro s t pin code n hp hn h
  have hregs := exec_setFunction_regs hp hn h
  have hword : t.regs.read (.fsel n) = withField (s.regs.read (.fsel n)) pin.toNat code := by
    rw [hregs, RegFile.read_write_same]
  have hkept : t.pull = s.pull ∧ t.uart = s.uart ∧ t.txq = s.txq := by
    rw [exec_setFunction_eq h]
    exact ⟨rfl, rfl, rfl⟩
  refine ⟨?_, ?_, fun i hi => ?_, fun r hr => ?_, hkept⟩
  · exact (congrArg (· &&& ~~~(fieldMask pin.toNat)) hword).trans (withField_and_not_fieldMask _ _ _)
  · exact (congrArg (fieldOf · pin.toNat) hword).trans (fieldOf_withField_same _ _ _)
  · have hout : ¬ (fieldOffset pin.toNat ≤ i ∧ i < fieldOffset pin.toNat + 3) := by
      unfold fieldOffset
      omega
    exact (congrArg (·.getLsbD i) hword).trans ((getLsbD_withField _ _ _ _).trans (if_neg hout))
  · rw [hregs, RegFile.read_write_other _ _ hr]

/-- Settles O30: the second command finds the code in the field already, and writes the word it read. -/
theorem setFunctionIsIdempotent : Obligations.SetFunctionIsIdempotent := by
  intro s t u pin code n hp hn ht hu
  have hcfg : t.cfg = s.cfg := (exec_progressed ht).cfg
  have hregs : u.regs = t.regs := by
    rw [exec_setFunction_regs hp hn hu, exec_setFunction_regs hp hn ht, RegFile.read_write_same, withField_withField,
      RegFile.write_write]
  refine ⟨hregs, ?_⟩
  rw [exec_setFunction_trace hp hn hu, exec_setFunction_trace hp hn ht, hregs, hcfg, List.append_assoc]
  rfl

/-- Settles O31: the decoder at operation number 4, then the command on a valid pin with the code of a variant, on an
invalid pin, and on a valid pin with the reserved code. -/
theorem setPullPerformsTheHandshake : Obligations.SetPullPerformsTheHandshake := by
  refine ⟨fun pin code text => ?_, fun pin b text hb => ?_, fun s pin code v k hp hk hv => ?_,
    fun s pin code hp => exec_setPullUpDown_invalid hp s, fun s pin hp => exec_setPullUpDown_reserved hp rfl s⟩
  · exact decode_encode_withText (i := .setPullUpDown pin code) rfl (by simp [Instr.opNumber]) text
  · exact decode_mustBeZero (.inr ⟨commandWord_op _ _ _, by rwa [PortCommand.b, commandWord_b]⟩)
  · obtain rfl : k = pullIndex pin.toNat := Fin.ext (hk.trans (pullIndex_val hp).symm)
    obtain rfl : v.code = code := PullVariant.code_of_ofCode hv
    rw [exec_setPullUpDown_valid hp hv, State.pullHandshake_eq]
    rfl

/-- Settles O32: the handshake sets one entry of the vector of latches. -/
theorem latchReachesOnlyThatPin : Obligations.LatchReachesOnlyThatPin := by
  intro s t pin v hp h
  obtain rfl := Host.Outcome.next.inj ((exec_setPullUpDown_valid hp v.ofCode_code s).symm.trans h)
  intro q
  simp [State.pullHandshake_eq, Vector.getElem_setIfInBounds, eq_comm]

/-- Settles O34: the frames of the three commands; that of SET_PULL_UP_DOWN on the other chain is the independence of
the chains (`pinPropertiesAreIndependent`). -/
theorem pinCommandsFrame : Obligations.PinCommandsFrame := by
  intro i s t pin hi h
  rcases hi with ⟨code, rfl⟩ | ⟨code, rfl⟩ | rfl
  · have hfsel : ∀ n : Fin 6, n.val ≠ pin.toNat / 10 → t.regs.read (.fsel n) = s.regs.read (.fsel n) :=
      fun n => exec_setFunction_fsel_other h
    rw [exec_setFunction_eq h]
    exact ⟨rfl, rfl, rfl, rfl, rfl, rfl, rfl, rfl, rfl, rfl, fun hno => absurd rfl (hno code),
      fun _ => ⟨rfl, rfl, fun _ => ⟨rfl, rfl⟩⟩, hfsel, fun _ _ => ⟨rfl, rfl⟩, rfl, rfl, rfl, rfl⟩
  · obtain ⟨-, -, hchain⟩ := pinPropertiesAreIndependent.2 s t pin code h
    rw [exec_setPullUpDown_eq h]
    exact ⟨rfl, rfl, rfl, rfl, rfl, rfl, rfl, rfl, rfl, rfl, fun _ => ⟨rfl, fun _ => rfl⟩,
      fun hno => absurd rfl (hno code), fun _ _ => rfl, hchain, rfl, rfl, rfl, rfl⟩
  · cases h
    exact ⟨rfl, rfl, rfl, rfl, rfl, rfl, rfl, rfl, rfl, rfl, fun _ => ⟨rfl, fun _ => rfl⟩,
      fun _ => ⟨rfl, rfl, fun _ => ⟨rfl, rfl⟩⟩, fun _ _ => rfl, fun _ _ => ⟨rfl, rfl⟩, rfl, rfl, rfl, rfl⟩

end Sys2Proof
end

section
/-! PROOF. The bytes a command submits (10 R37, 42 R120), what the UART commands do on each of their paths
(42_uart_controller.md R105 to R118), and runs with no command waiting. -/

namespace Sys2Proof

/-- TRANSMIT is refused when a bit above its byte is set (R73, R76). -/
theorem decode_transmit_mustBeZero {c : PortCommand} (hop : c.op = 0x7#4) (ha : c.a >>> 8 ≠ 0#32) :
    decode c = .error .mustBeZero := by
  simp [decode, hop, highBits_eq_zero_iff_shift, ha]

end Sys2Proof

namespace Sys2Proof.Machine

/-! ### The bytes submitted -/

@[simp] theorem Event.submits_rd (c : Board) (addr v : Word) : (Event.rd addr v).submits c = [] := rfl

@[simp] theorem Event.submits_dly (c : Board) (n : Nat) : (Event.dly n).submits c = [] := rfl

/-- A write to DR submits the low byte of its word (10 R25). -/
@[simp] theorem Event.submits_wr_dr (c : Board) (v : Word) :
    (Event.wr (c.addr .dr) v).submits c = [drByte v] := by
  simp [Event.submits]

/-- A write to a register submits nothing, since DR has an address of its own (R5). -/
theorem Event.submits_wr_reg {c : Board} (hw : c.WfMap) (r : Reg) (v : Word) :
    (Event.wr (c.addr (.reg r)) v).submits c = [] :=
  if_neg fun e => Location.noConfusion (Board.addr_injective hw e)

/-- The DR writes of a text submit its bytes in order. -/
theorem flatMap_submits_writeEvents (c : Board) (bytes : List Byte) :
    (writeEvents c bytes).flatMap (Event.submits c) = bytes := by
  simp [writeEvents, List.flatMap_map]

/-- With nothing queued a write of CR takes no draw (42 R113). -/
theorem State.disturbQueue_empty {s : State} (h : s.txq = []) : s.disturbQueue = s := if_pos h

/-- The bytes a command submits join the end of the output and the queue, which it disturbs only by writing CR while
bytes are queued (42 R113). -/
theorem exec_appends_submitted {i : Instr} {s t : State} (hw : s.cfg.WfMap) (h : exec i s = .next t)
    (hcr : writesControl s.cfg i = true → s.txq = []) :
    ∃ es, t.trace = s.trace ++ es ∧ t.txOut ++ t.txq = s.txOut ++ s.txq ++ es.flatMap (Event.submits s.cfg) := by
  cases exec_effect h with
  | rejected | nothing | drRejected | halted => exact ⟨[], by simp, by simp⟩
  | read addr l => exact ⟨_, s.memRead_trace l, by simp⟩
  | regWritten addr v r hr =>
    have hkeep : r ≠ .cr ∨ s.txq = [] := by
      rw [or_iff_not_imp_left, not_not]
      rintro rfl
      exact hcr (decide_eq_true (Board.addr_of_locate hr).symm)
    obtain ⟨hq, -⟩ := State.rawWriteEffect_keeps_queue (s := s.memWrite (.reg r) v) hkeep
    exact ⟨_, State.rawWriteEffect_trace r _, by simp [hq, Event.submits_wr_reg hw]⟩
  | drWritten i v => exact ⟨[.wr (s.cfg.addr .dr) v], rfl, by simpa using s.drWrite_bytes v⟩
  | text bytes =>
    obtain ⟨pre, -, -, htrace, hbytes, -⟩ := s.transmitBytes_spec bytes
    exact ⟨_, htrace, by rw [flatMap_submits_writeEvents]; exact hbytes⟩
  | setFunction =>
    rw [State.setField_eq]
    exact ⟨_, rfl, by simp [Event.submits_wr_reg hw]⟩
  | setPull =>
    rw [State.pullHandshake_eq]
    exact ⟨_, rfl, by simp [Event.submits_wr_reg hw]⟩
  | initialized baud hb =>
    have hq : s.disturbQueue.txq = s.txq := by rw [State.disturbQueue_empty (hcr hb)]
    rw [State.uartSequence_eq]
    exact ⟨_, rfl, by simp [hq, Event.submits_wr_reg hw]⟩

/-- The order of the bytes rests on the configuration, the trace, and the output followed by the queue. -/
theorem State.BytesInOrder.congr {s t : State} (hs : s.BytesInOrder) (hc : t.cfg = s.cfg) (ht : t.trace = s.trace)
    (hb : t.txOut ++ t.txq = s.txOut ++ s.txq) : t.BytesInOrder := by
  rw [State.BytesInOrder, State.submitted, hc, ht, hb]
  exact hs

theorem State.BytesInOrder.engine {s : State} (hs : s.BytesInOrder) : s.engine.BytesInOrder :=
  hs.congr s.engine_cfg s.engine_trace s.engine_bytes

theorem exec_keeps_bytesInOrder {i : Instr} {s t : State} (hw : s.cfg.WfMap) (h : exec i s = .next t)
    (hcr : writesControl s.cfg i = true → s.txq = []) (hs : s.BytesInOrder) : t.BytesInOrder := by
  obtain ⟨es, htrace, hbytes⟩ := exec_appends_submitted hw h hcr
  rw [State.BytesInOrder, hbytes, State.submitted, htrace, (exec_progressed h).cfg, List.flatMap_append]
  exact congrArg (· ++ _) hs

/-! ### UART_CONSTRUCT -/

/-- At UART_BASE the command completes (R105). -/
theorem exec_uartConstruct_base {base : Word} {s : State} (h : base.toNat = s.cfg.uartBase) :
    exec (.uartConstruct base) s = .next s.complete := if_pos h

/-- At any other base it raises UnsupportedPlatform (R105). -/
theorem exec_uartConstruct_other {base : Word} {s : State} (h : base.toNat ≠ s.cfg.uartBase) :
    exec (.uartConstruct base) s = .next (s.raise (.unsupportedPlatform base)) := if_neg h

/-- UART_CONSTRUCT writes nothing, apart from how it ends. -/
theorem exec_uartConstruct_eq {base : Word} {s t : State} (h : exec (.uartConstruct base) s = .next t) :
    t = { s with fault := t.fault, upc := t.upc } := by
  by_cases hb : base.toNat = s.cfg.uartBase
  · cases (exec_uartConstruct_base hb).symm.trans h
    rfl
  · cases (exec_uartConstruct_other hb).symm.trans h
    rfl

/-! ### INITIALIZE -/

/-- At an accepted baud rate INITIALIZE performs its sequence (R106, R108). -/
theorem exec_uartInitialize_valid {baud : Word} (h : baudValid baud = true) (s : State) :
    exec (.uartInitialize baud) s = .next (s.uartSequence baud).complete := if_pos h

/-- At any other it only raises the fault (R108). -/
theorem exec_uartInitialize_invalid {baud : Word} (h : ¬ baudValid baud = true) (s : State) :
    exec (.uartInitialize baud) s = .next (s.raise (.invalidBaud baud)) := if_neg h

/-- LCRH_8N1 has ones exactly at bits 5 and 6 (R70). -/
theorem getLsbD_lcrh8n1 (i : Nat) : lcrh8n1.getLsbD i = decide (i = 5 ∨ i = 6) := by
  by_cases h : i < 32
  · have hbits : ∀ j < 32, lcrh8n1.getLsbD j = decide (j = 5 ∨ j = 6) := by decide
    exact hbits i h
  · rw [BitVec.getLsbD_of_ge _ _ (Nat.le_of_not_lt h), eq_comm, decide_eq_false_iff_not]
    omega

/-- INITIALIZE writes at most the four UART registers, `uart_state`, T, the queue and the draws, apart from how it ends
and its trace. -/
theorem exec_uartInitialize_eq {baud : Word} {s t : State} (h : exec (.uartInitialize baud) s = .next t) :
    t = { s with
      regs := { s.regs with ibrd := t.regs.ibrd, fbrd := t.regs.fbrd, lcrh := t.regs.lcrh, cr := t.regs.cr }
      uart := t.uart
      fault := t.fault
      t := t.t
      upc := t.upc
      txq := t.txq
      trace := t.trace
      draws := t.draws } := by
  by_cases hb : baudValid baud = true
  · cases (exec_uartInitialize_valid hb s).symm.trans h
    rw [State.uartSequence_eq]
    rfl
  · cases (exec_uartInitialize_invalid hb s).symm.trans h
    rfl

/-! ### TRANSMIT and TRANSMIT_TEXT -/

/-- TRANSMIT raises what the checks of a DR write raise (R115). -/
theorem exec_transmit_of_fault {y : Byte} {s : State} {f : Fault} (hf : s.drFault y = some f) :
    exec (.transmit y) s = .next (s.raise f) := by
  simp only [exec, execTransmit, hf]

/-- TRANSMIT is a DR write of its byte when the checks pass (R115). -/
theorem exec_transmit_of_no_fault {y : Byte} {s : State} (hf : s.drFault y = none) :
    exec (.transmit y) s = .next (s.drWrite (drWord y)).complete := by
  simp only [exec, execTransmit, hf]

/-- A byte that fails a check ends the text (R118). -/
theorem State.transmitBytes_cons_of_fault {y : Byte} {s : State} {f : Fault} (hf : s.drFault y = some f)
    (ys : List Byte) : s.transmitBytes (y :: ys) = s.raise f := by
  simp only [State.transmitBytes, hf]

/-- A byte that passes its checks is written, and the text goes on (R118). -/
theorem State.transmitBytes_cons_of_no_fault {y : Byte} {s : State} (hf : s.drFault y = none) (ys : List Byte) :
    s.transmitBytes (y :: ys) = (s.drWrite (drWord y)).transmitBytes ys := by
  simp only [State.transmitBytes, hf]

/-- A text whose first part meets no full FIFO goes on with the rest of it from where that part led. -/
theorem State.transmitBytes_append {s : State} {before : List Byte} (hu : s.uart = .initialized)
    (hfull : s.NoOverflowFor before.length) (after : List Byte) :
    s.transmitBytes (before ++ after) = (s.transmitBytes before).transmitBytes after := by
  induction before generalizing s with
  | nil => rfl
  | cons y ys ih =>
    obtain ⟨hnow, hlater⟩ := (State.noOverflowFor_succ (drWord y)).mp hfull
    have hcheck : s.drFault y = none := State.drFault_eq_none.mpr ⟨hu, hnow⟩
    rw [List.cons_append, State.transmitBytes_cons_of_no_fault hcheck, State.transmitBytes_cons_of_no_fault hcheck]
    exact ih (s := s.drWrite (drWord y)) hu hlater

/-- A text that meets no full FIFO is written whole, one DR write for each byte in order; where its bytes stand between
the queue and the output is up to the engine (R118, log 2). -/
theorem State.transmitBytes_written {s : State} {text : List Byte} (hu : s.uart = .initialized)
    (hfull : s.NoOverflowFor text.length) :
    (s.transmitBytes text).txOut ++ (s.transmitBytes text).txq = s.txOut ++ s.txq ++ text ∧
      s.transmitBytes text =
        { s with
          trace := s.trace ++ writeEvents s.cfg text
          txOut := (s.transmitBytes text).txOut
          txq := (s.transmitBytes text).txq
          draws := s.draws.afterFull text.length
          upc := (s.transmitBytes text).upc } := by
  obtain ⟨pre, post, rfl, htrace, hbytes, heq, hend⟩ := s.transmitBytes_spec text
  rcases hend with ⟨rfl, hfault⟩ | ⟨y, ys, rfl, hfault, hne⟩
  · rw [List.append_nil] at *
    exact ⟨hbytes, heq.trans (by rw [htrace, hfault])⟩
  · have hroom := hfull pre.length (by simp)
    exact absurd (hfault.trans (State.drFault_eq_none.mpr ⟨hu, hroom⟩)) hne

/-- TRANSMIT_TEXT writes at most the output, the queue and the draws, apart from how it ends and its trace. -/
theorem exec_transmitText_eq {text : List Byte} {s t : State} (h : exec (.transmitText text) s = .next t) :
    t = { s with
      fault := t.fault
      upc := t.upc
      txq := t.txq
      txOut := t.txOut
      trace := t.trace
      draws := t.draws } := by
  cases h
  rw [State.transmitBytes_eq]
  rfl

/-! ### Runs with no command waiting -/

section
variable {run : Nat → State} (hrun : IsRun run) (hport : (run 0).port = [])
include hrun hport

/-- Such a run is made of moves of the engine (43 R124, log 9). -/
theorem IsRun.succ_eq_engine (k : Nat) : run (k + 1) = (run k).engine := by
  have hreach : Reaches (run 0) (run k) := by
    induction k with
    | zero => exact .start
    | succ k ih => exact .next ih (hrun k)
  exact step_port_nil (hreach.port_nil hport) (hrun k)

/-- Along such a run only the output, the queue and the draws change, and no byte is lost or overtaken (42 R120). -/
theorem IsRun.keeps_bytes (k : Nat) :
    (run k).uart = (run 0).uart ∧ (run k).regs = (run 0).regs ∧ (run k).trace = (run 0).trace ∧
      (run k).txOut ++ (run k).txq = (run 0).txOut ++ (run 0).txq := by
  induction k with
  | zero => exact ⟨rfl, rfl, rfl, rfl⟩
  | succ k ih =>
    rw [hrun.succ_eq_engine hport k]
    simpa using ih

/-- The queue gets no longer along such a run. -/
theorem IsRun.antitone_length : Antitone fun k => (run k).txq.length := by
  refine antitone_nat_of_succ_le fun k => ?_
  rw [hrun.succ_eq_engine hport k]
  exact (run k).engine_length_le

/-- A byte that leaves for the output leaves the queue. -/
theorem IsRun.length_lt {j : Nat} (h : (run j).txOut.length < (run (j + 1)).txOut.length) :
    (run (j + 1)).txq.length < (run j).txq.length := by
  rw [hrun.succ_eq_engine hport j] at h ⊢
  have hbytes := congrArg List.length (run j).engine_bytes
  rw [List.length_append, List.length_append] at hbytes
  omega

/-- Under weak fairness the queue of such a run is empty at some moment: at one where it is shortest. -/
theorem IsRun.exists_txq_empty (hfair : WeaklyFair run) (hinit : (run 0).UartInit) (hibrd : (run 0).regs.ibrd ≠ 0) :
    ∃ k, (run k).txq = [] := by
  by_contra hnever
  rw [not_exists] at hnever
  let queued : ℕ → ℕ := fun k => (run k).txq.length
  let k := Function.argmin queued
  obtain ⟨j, hkj, hgrows⟩ := hfair k fun j _ => by
    obtain ⟨huart, hregs, -, -⟩ := hrun.keeps_bytes hport j
    exact ⟨huart.trans hinit, hnever j, hregs ▸ hibrd⟩
  have hshorter : (run (j + 1)).txq.length < (run k).txq.length :=
    (hrun.length_lt hport hgrows).trans_le (hrun.antitone_length hport hkj)
  exact Function.not_lt_argmin queued (j + 1) hshorter

end

end Sys2Proof.Machine
end

section
/-! PROOF. The statements of 42_uart_controller.md. -/

namespace Sys2Proof

open Sys2Proof.Machine

/-- Settles O57: a command adds to the output and the queue the bytes its events submit (`exec_appends_submitted`), and
the engine only moves bytes; where the command writes CR the queue is empty, so the engine before it does nothing. -/
theorem stepsKeepTheBytesInOrder : Obligations.StepsKeepTheBytesInOrder := by
  intro s t hs hcr h
  obtain ⟨hw, ⟨rfl, -⟩ | ⟨c, rest, -, hp, ⟨i, u, hd, hx, rfl⟩ | ⟨e, -, rfl⟩⟩⟩ := step_cases h
  · exact hs.engine
  · let v : State := { s.engine with port := rest }.load c
    have hcfg : v.cfg = s.cfg := s.engine_cfg
    have hempty : writesControl v.cfg i = true → v.txq = [] := by
      rw [hcfg]
      intro hi
      have hq : s.txq = [] := hcr c rest i hp hd hi
      exact (congrArg State.txq (State.engine_empty hq)).trans hq
    exact (exec_keeps_bytesInOrder (s := v) (by rwa [hcfg]) hx hempty hs.engine).engine
  · exact hs.engine

/-- Settles O36: the sequence as one equation; what becomes of the queue is that of the write of CR. -/
theorem initializePerformsTheSequence : Obligations.InitializePerformsTheSequence := by
  intro s baud hpos hlt
  refine ⟨s.disturbQueue.txq, s.disturbQueue.draws, s.disturbQueue_length_le, fun hq => ?_, ?_⟩
  · rw [State.disturbQueue_empty hq]
  · rw [exec_uartInitialize_valid (baudValid_iff.mpr ⟨hpos, hlt⟩), State.uartSequence_eq]
    rfl

/-- Settles O37: the one read is that of LCRH, whose address is none of the three. -/
theorem initializeDisablesFirstAndReadsNothingBack : Obligations.InitializeDisablesFirstAndReadsNothingBack := by
  intro s t baud hb h
  cases (exec_uartInitialize_valid hb s).symm.trans h
  rw [State.uartSequence_eq]
  refine ⟨rfl, _, rfl, fun hw v => ?_⟩
  have hne : ∀ r : Reg, r ≠ .lcrh → s.cfg.addr (.reg r) ≠ s.cfg.addr (.reg .lcrh) :=
    fun r hr e => hr (Location.reg.inj (Board.addr_injective hw e))
  simp [hne]

/-- Settles O40: the word written back is the old one with LCRH_8N1 OR-ed in. -/
theorem lineControlIsMerged : Obligations.LineControlIsMerged := by
  intro s t baud hb h i
  cases (exec_uartInitialize_valid hb s).symm.trans h
  rw [State.uartSequence_eq, ← getLsbD_lcrh8n1]
  exact BitVec.getLsbD_or

/-- Settles O41: the decoder at operation number 7, then the two checks in their order and the DR write. -/
theorem transmitWritesTheByte : Obligations.TransmitWritesTheByte := by
  refine ⟨fun y b text => ?_, fun a b text ha => ?_, fun s y => ⟨fun hu => ?_, fun hu hfull => ?_, fun hu hroom => ?_⟩⟩
  · exact (decodeFollowsTheFormats _ (.transmit y)).mpr ⟨rfl, commandWord_op _ _ _, fun _ => commandWord_a _ _ _,
      nofun, fun h => absurd ((commandWord_op _ _ _).symm.trans h) (by decide)⟩
  · exact decode_transmit_mustBeZero (commandWord_op _ _ _) (by rwa [PortCommand.a, commandWord_a])
  · exact exec_transmit_of_fault (State.drFault_uninitialized hu)
  · exact exec_transmit_of_fault (State.drFault_full hu hfull)
  · have hbytes := s.drWrite_bytes (drWord y)
    have hlast := s.drWrite_txq_getLast? (drWord y)
    have htail := fun hlt => State.drWrite_txq_of_room (s := s) hlt (drWord y)
    rw [drByte_drWord] at hbytes hlast htail
    exact ⟨_, exec_transmit_of_no_fault (State.drFault_eq_none.mpr ⟨hu, hroom⟩), hbytes, hlast, htail, rfl⟩

/-- Settles O42: every byte is written; with room for the whole text none of it has to leave the queue. -/
theorem transmitTextWritesEveryByte : Obligations.TransmitTextWritesEveryByte := by
  refine ⟨fun _ => rfl, fun s text hu hfull => ?_⟩
  obtain ⟨hbytes, heq⟩ := State.transmitBytes_written hu hfull
  refine ⟨(s.transmitBytes text).complete, rfl, hbytes, fun hroom => ?_, congrArg State.complete heq⟩
  obtain ⟨-, -, hq⟩ := State.transmitBytes_queues hu hfull hroom
  exact hq

/-- Settles O43: the bytes before are written as a text of their own (`State.transmitBytes_written`), and the byte that
then finds the FIFO full ends the command. -/
theorem transmitTextStopsAtTheFaultingByte : Obligations.TransmitTextStopsAtTheFaultingByte := by
  refine ⟨fun s y ys hu => ?_, fun s before after y hu hno hfull => ?_⟩
  · exact congrArg (fun t : State => Host.Outcome.next t.complete)
      (State.transmitBytes_cons_of_fault (State.drFault_uninitialized hu) ys)
  · obtain ⟨hbytes, heq⟩ := State.transmitBytes_written hu hno
    have hcheck : (s.transmitBytes before).drFault y = some (.uartFifoOverflow y) := by
      rw [heq]
      exact State.drFault_full hu hfull
    have hrun : s.transmitBytes (before ++ y :: after) = (s.transmitBytes before).raise (.uartFifoOverflow y) :=
      (State.transmitBytes_append hu hno _).trans (State.transmitBytes_cons_of_fault hcheck after)
    refine ⟨(s.transmitBytes before).raise (.uartFifoOverflow y), ?_, hbytes,
      congrArg (State.raise (.uartFifoOverflow y)) heq⟩
    exact congrArg (fun t : State => Host.Outcome.next t.complete) hrun

/-- Settles O44: the frames of the four commands; TRANSMIT is a text of one byte. -/
theorem uartCommandsFrame : Obligations.UartCommandsFrame := by
  intro i s t hi h
  rcases hi with ⟨base, rfl⟩ | ⟨baud, rfl⟩ | ⟨y, rfl⟩ | ⟨text, rfl⟩
  · rw [exec_uartConstruct_eq h]
    exact ⟨rfl, rfl, rfl, rfl, rfl, rfl, rfl, rfl, fun _ => rfl, fun _ => ⟨rfl, rfl⟩, fun _ => ⟨rfl, rfl, rfl⟩,
      fun _ _ => rfl, fun _ => ⟨rfl, rfl, rfl⟩⟩
  · rw [exec_uartInitialize_eq h]
    exact ⟨rfl, rfl, rfl, rfl, rfl, rfl, rfl, rfl, fun _ => rfl, fun _ => ⟨rfl, rfl⟩,
      fun hno => absurd rfl (hno baud), fun _ _ => rfl, nofun⟩
  · rw [exec_transmitText_eq ((exec_transmit_eq_text y s).symm.trans h)]
    exact ⟨rfl, rfl, rfl, rfl, rfl, rfl, rfl, rfl, fun _ => rfl, fun _ => ⟨rfl, rfl⟩, fun _ => ⟨rfl, rfl, rfl⟩,
      fun hno _ => absurd rfl (hno y), nofun⟩
  · rw [exec_transmitText_eq h]
    exact ⟨rfl, rfl, rfl, rfl, rfl, rfl, rfl, rfl, fun _ => rfl, fun _ => ⟨rfl, rfl⟩, fun _ => ⟨rfl, rfl, rfl⟩,
      fun _ hno => absurd rfl (hno text), nofun⟩

/-- Settles O59: the run consists of moves of the engine, which lose no byte; so when the queue is empty, the output has
them all. -/
theorem fairRunsDrainTheQueue : Obligations.FairRunsDrainTheQueue := by
  intro run hrun hfair hport hinit hibrd
  obtain ⟨k, hempty⟩ := hrun.exists_txq_empty hport hfair hinit hibrd
  obtain ⟨-, -, htrace, hbytes⟩ := hrun.keeps_bytes hport k
  rw [hempty, List.append_nil] at hbytes
  exact ⟨k, hempty, hbytes, htrace⟩

/-- Settles O35: the two ends of UART_CONSTRUCT. -/
theorem uartConstructChecksTheBase : Obligations.UartConstructChecksTheBase :=
  fun _ _ => ⟨exec_uartConstruct_base, exec_uartConstruct_other⟩

/-- Settles O38: these are the baud rates that are not accepted. -/
theorem invalidBaudFaults : Obligations.InvalidBaudFaults := by
  intro s baud h
  refine exec_uartInitialize_invalid (fun hvalid => ?_) s
  obtain ⟨hpos, hlt⟩ := baudValid_iff.mp hvalid
  omega

end Sys2Proof
end

section
/-! PROOF. The statement of 43_system.md. -/

namespace Sys2Proof

open Sys2Proof.Machine

/-- A word at operation number 9 decodes to HALT: its format uses neither field and checks no bit (R73, R84). -/
theorem decode_halt {c : PortCommand} (hop : c.op = 0x9#4) : decode c = .ok .halt :=
  (decodeFollowsTheFormats c .halt).mpr
    ⟨rfl, hop, nofun, nofun, fun h => absurd (hop.symm.trans h) (by decide)⟩

/-- Settles O45: the command sets `halted` and ends, in every state; the decoder looks at the operation number only. -/
theorem haltSetsOnlyHalted : Obligations.HaltSetsOnlyHalted := by
  refine ⟨fun s => ?_, fun a b text => ?_⟩
  · rfl
  · exact decode_halt (commandWord_op 0x9 a b)

end Sys2Proof
end

section
/-! PROOF. The statement of 60_exceptions.md. -/

namespace Sys2Proof

open Sys2Proof.Machine

/-- A command other than TRANSMIT_TEXT makes its checks before its first step (60 R130): it ends in a raised fault at
once, or it keeps the fault mark. -/
theorem exec_raises_or_keeps_fault {i : Instr} {s t : State} (h : exec i s = .next t)
    (hi : ∀ text, i ≠ .transmitText text) : (∃ f, t = s.raise f) ∨ t.fault = s.fault := by
  cases exec_effect h with
  | rejected i f | drRejected i v f => exact .inl ⟨f, rfl⟩
  | nothing | drWritten | halted => exact .inr rfl
  | read | regWritten => exact .inr (by simp)
  | setFunction => exact .inr (by rw [State.complete_fault, State.setField_eq])
  | setPull => exact .inr (by rw [State.complete_fault, State.pullHandshake_eq])
  | initialized => exact .inr (by rw [State.complete_fault, State.uartSequence_eq])
  | text bytes => exact absurd rfl (hi bytes)

/-- Settles O18: a mark that was not there before was raised from the state before, and `State.raise` writes only the
mark and `upc`. -/
theorem faultingCommandsArePrecise : Obligations.FaultingCommandsArePrecise := by
  intro i s t hs h ht hi
  rcases exec_raises_or_keeps_fault h hi with ⟨f, rfl⟩ | hkept
  · rfl
  · exact absurd (hkept.trans hs) ht

end Sys2Proof
end
